-- ==== Sys2Proof/Word.lean ====
section
/-! DEFINITION. The word types of the block: u8, u16 and u32 of spec/00_scope.md R12. Every value is unsigned. -/

namespace Sys2Proof

/-- u8: one wire byte. -/
abbrev Byte := BitVec 8

/-- u16: the CRC accumulator, a request's start and count, a register value. -/
abbrev Half := BitVec 16

/-- u32: a bus word and a command word (20_memory.md R62, 30_encoding.md R80). -/
abbrev Word := BitVec 32

end Sys2Proof
end

