-- ==== Sys2Proof/Syntax.lean ====
section
/-! DEFINITION. The nine commands of spec/30_encoding.md R82, one constructor per row of spec/opcode_table.json.
Bus accesses and reset, which are no commands, are in Machine/Bus.lean. -/

namespace Sys2Proof

/-- A command of the block. A command that ignores the byte operand B has no operand here (R83, log 11). -/
inductive Instr where
  /-- CRC_INIT, 40_crc.md R104. -/
  | crcInit
  /-- CRC_BYTE b, 40_crc.md R105. -/
  | crcByte (b : Byte)
  /-- ENCODE, 41_frame_codec.md R122. -/
  | encode
  /-- FB_CLEAR, 41_frame_codec.md R123. -/
  | fbClear
  /-- FB_PUSH b, 41_frame_codec.md R124. -/
  | fbPush (b : Byte)
  /-- DECODE, 41_frame_codec.md R134. -/
  | decode
  /-- SYNC_START, 42_stream_sync.md R152. -/
  | syncStart
  /-- SYNC_BYTE b, 42_stream_sync.md R153. -/
  | syncByte (b : Byte)
  /-- SYNC_ABORT, 42_stream_sync.md R165. -/
  | syncAbort
deriving DecidableEq, Repr

end Sys2Proof
end

