-- ==== Sys2Proof/Decode.lean ====
section
/-! DEFINITION. Command words: the decoder of spec/30_encoding.md R80 to R83, total on every word and rejecting by
name, and the encoder from the same table (R94). -/

namespace Sys2Proof

/-- OP, bits 7:0 (R80). -/
def opOf (v : Word) : Byte := v.extractLsb' 0 8

/-- B, bits 15:8 (R80). -/
def byteOf (v : Word) : Byte := v.extractLsb' 8 8

/-- RSV, bits 31:16, which must be 0 (R80, R81). -/
def rsvOf (v : Word) : Half := v.extractLsb' 16 16

/-- Why a word is no command (R89). -/
inductive DecodeReject where
  /-- RSV is not 0 (R81). -/
  | reservedNonzero (rsv : Half)
  /-- OP is not assigned (R82). -/
  | unassignedOp (op : Byte)
deriving DecidableEq, Repr

/-- The command a word encodes, RSV checked before OP (spec/60_exceptions.md R182, checks 1 and 2). -/
def decode (v : Word) : Except DecodeReject Instr :=
  if rsvOf v = 0#16 then
    match opOf v with
    | 0x01#8 => .ok .crcInit
    | 0x02#8 => .ok (.crcByte (byteOf v))
    | 0x10#8 => .ok .encode
    | 0x20#8 => .ok .fbClear
    | 0x21#8 => .ok (.fbPush (byteOf v))
    | 0x22#8 => .ok .decode
    | 0x30#8 => .ok .syncStart
    | 0x31#8 => .ok (.syncByte (byteOf v))
    | 0x32#8 => .ok .syncAbort
    | op => .error (.unassignedOp op)
  else .error (.reservedNonzero (rsvOf v))

/-- `(b << 8) | OP` (R92). -/
def commandWord (op b : Byte) : Word := (b.setWidth 32 <<< 8) ||| op.setWidth 32

/-- The word of a command (R94); a command that ignores B has B = 0 (log 11). -/
def encode : Instr → Word
  | .crcInit => commandWord 0x01#8 0#8
  | .crcByte b => commandWord 0x02#8 b
  | .encode => commandWord 0x10#8 0#8
  | .fbClear => commandWord 0x20#8 0#8
  | .fbPush b => commandWord 0x21#8 b
  | .decode => commandWord 0x22#8 0#8
  | .syncStart => commandWord 0x30#8 0#8
  | .syncByte b => commandWord 0x31#8 b
  | .syncAbort => commandWord 0x32#8 0#8

/-- The host's question for one row of the opcode table: what the decoder reads from the 32-bit word whose low `nbits`
bits are `w` (log 15). -/
def decodeTableWord (nbits w : Nat) : Option Instr :=
  if nbits ≤ 32 then
    match decode (BitVec.ofNat 32 (w % 2 ^ nbits)) with
    | .ok i => some i
    | .error _ => none
  else none

end Sys2Proof
end

