-- ==== Sys2Proof/Config.lean ====
section
/-! DEFINITION. The parameters of spec/00_scope.md R10 and the free values of spec/93_implementation_defined.md U1. -/

namespace Sys2Proof.Config

/-- CRC_POLY, the reflected polynomial (R10). -/
@[simp] abbrev crcPoly : Half := 0xA001#16

/-- CRC_SEED, the accumulator's seed (R10). -/
@[simp] abbrev crcSeed : Half := 0xFFFF#16

/-- DEFAULT_FC, REQ_FC's reset value (R10, 10_state.md R27). -/
@[simp] abbrev defaultFc : Byte := 0x03#8

/-- MARKER_FC, the marker's second byte (R10, 42_stream_sync.md R162). -/
@[simp] abbrev markerFc : Byte := 0x03#8

/-- EXC_BIT, the function code's exception bit (R10). -/
@[simp] abbrev excBit : Nat := 7

/-- MIN_FRAME, the shortest decodable frame in bytes (R10, 41_frame_codec.md R126). -/
@[simp] abbrev minFrame : Nat := 5

/-- HUNT_CAP, the marker search's cap in bytes (R10, 42_stream_sync.md R156). -/
@[simp] abbrev huntCap : Nat := 100

/-- FB_CAP, the bytes FB has (R10, 10_state.md R41). -/
@[simp] abbrev fbCap : Nat := 260

/-- VALUES_CAP, the entries VALUES has (R10, 10_state.md R42). -/
@[simp] abbrev valuesCap : Nat := 127

/-- The register window's size in bytes (R10, 20_memory.md R60). -/
@[simp] abbrev windowBytes : Nat := 4096

/-- The free value of an unwritten FB byte lane in a host read (93_implementation_defined.md U1): nothing constrains
it. Its argument is the number of the draw, so that two reads need not agree (log 4). -/
opaque freeByte : Nat → Byte

/-- The free value of an unwritten VALUES entry in a host read, 16 bits (93_implementation_defined.md U1, which
20_memory.md R71 names): nothing constrains it. Its argument is the number of the draw (log 4). -/
opaque freeHalf : Nat → Half

end Sys2Proof.Config
end

