-- ==== Sys2Proof/Machine/Crc16.lean ====
section
/-! DEFINITION. The CRC-16 functions of spec/40_crc.md section 1: crc_step, crc16, crc_ok. -/

namespace Sys2Proof.Machine

/-- One turn of R101's loop: shift right by one, then XOR in the polynomial if the bit shifted out was 1. -/
def crcShift (a : Half) : Half :=
  if a.getLsbD 0 then (a >>> 1) ^^^ Config.crcPoly else a >>> 1

/-- `n` turns of R101's loop. -/
def crcShifts : Nat → Half → Half
  | 0, a => a
  | n + 1, a => crcShifts n (crcShift a)

/-- crc_step (R101): the byte is XORed into bits 7:0, then eight turns. -/
def crcStep (acc : Half) (b : Byte) : Half :=
  crcShifts 8 (acc ^^^ b.setWidth 16)

/-- crc16 (R102): the fold of crc_step from the seed. -/
def crc16 (s : List Byte) : Half :=
  s.foldl crcStep Config.crcSeed

/-- The 16-bit number of a little-endian byte pair: low byte first (R103, 20_memory.md R73). -/
def halfLE (lo hi : Byte) : Half :=
  lo.setWidth 16 ||| (hi.setWidth 16 <<< 8)

/-- crc_ok (R103), which the spec defines for two bytes or more: the CRC of all bytes but the last two equals the last
two, low byte first. On a shorter list, which no caller passes, it is false. -/
def crcOk (f : List Byte) : Bool :=
  match f.drop (f.length - 2) with
  | [lo, hi] => crc16 (f.take (f.length - 2)) == halfLE lo hi
  | _ => false

end Sys2Proof.Machine
end

