-- ==== Sys2Proof/Machine/Bus.lean ====
section
/-! DEFINITION. What the host can do to the block (spec/20_memory.md sections 1 and 2, spec/70_reset_and_hazards.md
R210): a bus access or a reset; and the registers of the window by name (R61). -/

namespace Sys2Proof.Machine

/-- The width of an access. Only `word` is accepted (20_memory.md R62). -/
inductive AccessSize where
  /-- 8 bits. -/
  | byte
  /-- 16 bits. -/
  | half
  /-- 32 bits. -/
  | word
  /-- A burst, or any width that is none of the others (R63). -/
  | other
deriving DecidableEq, Repr

/-- One host bus access. `off` counts bytes from the window's base, which the platform chooses (R60). Any number from
4096 up stands for an access outside the window (R64, log 7). -/
inductive Access where
  | read (size : AccessSize) (off : Nat)
  | write (size : AccessSize) (off : Nat) (v : Word)
deriving DecidableEq, Repr

/-- What happens to the block next: an access of the host, or a reset between accesses (70_reset_and_hazards.md R210). -/
inductive HostEvent where
  | access (a : Access)
  | reset
deriving DecidableEq, Repr

/-- The registers and window entries of the address map (20_memory.md R61). -/
inductive Reg where
  | cmd
  | err
  | crc
  | reqAddr
  | reqFc
  | reqStart
  | reqCount
  | txLo
  | txHi
  | fbLen
  | decStatus
  | decVcount
  | syncState
  | syncHunt
  | syncNoise
  | syncRemain
  /-- VALUES[i], i in 0..126. -/
  | values (i : Nat)
  /-- FB_WIN[k], k in 0..64. -/
  | fbWin (k : Nat)
  /-- A reserved offset. -/
  | reserved
deriving DecidableEq, Repr

/-- The size of an access. -/
def Access.size : Access → AccessSize
  | .read z _ => z
  | .write z _ _ => z

/-- The byte offset of an access. -/
def Access.off : Access → Nat
  | .read _ o => o
  | .write _ o _ => o

end Sys2Proof.Machine
end

