-- ==== Sys2Proof/Machine/State.lean ====
section
/-! DEFINITION. The state of one block instance (spec/10_state.md R22), the host's script beside it, the reasons a
step can stop, and the state after reset (spec/70_reset_and_hazards.md R211, R212). -/

namespace Sys2Proof.Machine

/-- SYNC_STATE.STATE (10_state.md R37). -/
inductive SyncState where
  | idle
  | hunt
  | count
  | payload
  | done
  | fail
deriving DecidableEq, Repr

/-- DEC_STATUS.RESULT (10_state.md R34). `noDecode` is the spec's NONE. -/
inductive DecResult where
  | noDecode
  | ok
  | short
  | funcExc
  | crcMismatch
deriving DecidableEq, Repr

/-- A command error, by the ERR bit it sets (60_exceptions.md R181). -/
inductive CmdError where
  | ill
  | seq
  | ovf
deriving DecidableEq, Repr

/-- Where a meaning stops because the spec's pseudocode has nothing to read, write or subtract. No state that meets
`BlockInv` (Safety.lean) reaches one, so no run from reset does; all three are safe (log 9). -/
inductive Fault where
  /-- FB[i] with i ≥ 260 does not exist (10_state.md R41). Raised by FB_PUSH with FB_LEN > 260 and by SYNC_BYTE in
  PAYLOAD with FB_LEN ≥ 260. Safe. -/
  | fbIndex
  /-- DECODE met an unwritten byte below FB_LEN, against 10_state.md R45 item 2. Raised by DECODE. Safe. -/
  | fbUnwritten
  /-- REMAIN − 1 with REMAIN = 0 in PAYLOAD (42_stream_sync.md R159). Raised by SYNC_BYTE in PAYLOAD. Safe. -/
  | remainZero
deriving DecidableEq, Repr

/-- Where the model takes no step. -/
inductive Refusal where
  /-- An instruction with no meaning yet. Raised by no arm of exec: every command has its meaning. Safe. -/
  | notModelled (mnemonic : String)
  /-- The host has issued no access, and the block never takes a step without one (00_scope.md R16). Raised by step
  (log 2). Safe. -/
  | noHostAccess
  /-- An access of 8 or 16 bits, a burst or another width (20_memory.md R63). Raised by a bus access. Safe. -/
  | unsupportedSize
  /-- An access at an offset that is no multiple of 4 (20_memory.md R63). Raised by a bus access. Safe. -/
  | misalignedOffset
  /-- An access outside the window never reaches the block (20_memory.md R64). Raised by a bus access. Safe. -/
  | outsideWindow
  /-- The platform has no block instance of that number (Machine/Channels.lean, log 12). Safe. -/
  | noSuchChannel
deriving DecidableEq, Repr

/-- A RAM as its written entries: index and contents, indices strictly rising. An index that is not listed is
*unwritten* (10_state.md R41, R42; log 16). -/
abbrev Memory (w : Nat) := List (Nat × BitVec w)

/-- One block instance (10_state.md R22, in its order) and, below the line, the model's own fields. -/
structure State where
  /-- ERR.ILL (R24). -/
  errIll : Bool
  /-- ERR.SEQ (R24). -/
  errSeq : Bool
  /-- ERR.OVF (R24). -/
  errOvf : Bool
  /-- ACC (R25). -/
  acc : Half
  /-- REQ_ADDR.ADDR (R26). -/
  reqAddr : Byte
  /-- REQ_FC.FC (R27). -/
  reqFc : Byte
  /-- REQ_START.START (R28). -/
  reqStart : Half
  /-- REQ_COUNT.COUNT (R29). -/
  reqCount : Half
  /-- TX[0..7] (R43). -/
  tx : Vector Byte 8
  /-- FB_LEN.LEN, 0..260 (R32). -/
  fbLen : Nat
  /-- FB[0..259] (R41). -/
  fb : Memory 8
  /-- DEC_STATUS.RESULT (R33, R34). -/
  result : DecResult
  /-- DEC_STATUS.BC_WARN (R33). -/
  bcWarn : Bool
  /-- DEC_STATUS.EXC_CODE (R33). -/
  excCode : Byte
  /-- DEC_VCOUNT.VCOUNT, 0..127 (R35). -/
  vcount : Nat
  /-- VALUES[0..126] (R42). -/
  values : Memory 16
  /-- SYNC_STATE.STATE (R36, R37). -/
  sync : SyncState
  /-- SYNC_STATE.SADDR (R36). -/
  saddr : Byte
  /-- SYNC_HUNT.HUNTLEN, 0..101 (R38). -/
  huntLen : Nat
  /-- SYNC_HUNT.LAST (R38). -/
  last : Byte
  /-- SYNC_NOISE.NOISE, 0..99 (R39). -/
  noise : Nat
  /-- SYNC_REMAIN.REMAIN, 0..257 (R40). -/
  remain : Nat
  /-- MODEL'S OWN: what the host will do, first entry first (00_scope.md R16, 20_memory.md R75; log 1). -/
  inputs : List HostEvent
  /-- MODEL'S OWN: the word the last access returned, none after a write or a reset (00_scope.md R16; log 3). -/
  readData : Option Word
  /-- MODEL'S OWN: free draws used so far by host reads (93_implementation_defined.md U1; log 4). -/
  draws : Nat
deriving DecidableEq, Repr

/-- The block after reset (70_reset_and_hazards.md R211, R212), no host access issued (log 1, log 3, log 5). -/
def State.reset : State where
  errIll := false
  errSeq := false
  errOvf := false
  acc := Config.crcSeed
  reqAddr := 0x00#8
  reqFc := Config.defaultFc
  reqStart := 0x0000#16
  reqCount := 0x0000#16
  tx := Vector.replicate 8 0x00#8
  fbLen := 0
  fb := []
  result := .noDecode
  bcWarn := false
  excCode := 0x00#8
  vcount := 0
  values := []
  sync := .idle
  saddr := 0x00#8
  huntLen := 0
  last := 0x00#8
  noise := 0
  remain := 0
  inputs := []
  readData := none
  draws := 0

end Sys2Proof.Machine
end

