-- ==== Sys2Proof/Machine/CrcUnit.lean ====
section
/-! DEFINITION. The CRC engine's two commands (spec/40_crc.md section 2). They are legal in every synchronizer state
and have no error besides an illegal encoding (R108). -/

namespace Sys2Proof.Machine

/-- CRC_INIT (R104): ACC <- 0xFFFF. -/
def execCrcInit (s : State) : Host.Outcome State Fault Refusal :=
  .next { s with acc := Config.crcSeed }

/-- CRC_BYTE b (R105): ACC <- crc_step(ACC, b). -/
def execCrcByte (b : Byte) (s : State) : Host.Outcome State Fault Refusal :=
  .next { s with acc := crcStep s.acc b }

end Sys2Proof.Machine
end

