-- ==== Sys2Proof/Machine/Frame.lean ====
section
/-! DEFINITION. The frame codec as pure functions (spec/41_frame_codec.md sections 1 and 3; layouts
spec/30_encoding.md R84 to R88). -/

namespace Sys2Proof.Machine

/-- Bits 7:0 of a half word. -/
def loByte (h : Half) : Byte := h.extractLsb' 0 8

/-- Bits 15:8 of a half word. -/
def hiByte (h : Half) : Byte := h.extractLsb' 8 8

/-- The 16-bit number of a big-endian byte pair: high byte first (30_encoding.md R88, 20_memory.md R73). -/
def halfBE (hi lo : Byte) : Half :=
  (hi.setWidth 16 <<< 8) ||| lo.setWidth 16

/-- The 6-byte PDU of a request (R121): start and count high byte first. -/
def requestPdu (a fc : Byte) (s c : Half) : List Byte :=
  [a, fc, hiByte s, loByte s, hiByte c, loByte c]

/-- encode (R121): the PDU, then its CRC low byte first. -/
def encodeRequest (a fc : Byte) (s c : Half) : Vector Byte 8 :=
  let k := crc16 (requestPdu a fc s c)
  #v[a, fc, hiByte s, loByte s, hiByte c, loByte c, loByte k, hiByte k]

/-- What decode returns (R125). -/
inductive FrameResult where
  | ok (vals : List Half) (warn : Bool)
  | short
  | funcExc (code : Byte)
  | crcMismatch
deriving DecidableEq, Repr

/-- The first `k` big-endian pairs of a list of bytes, in order (R131). -/
def bePairs : Nat → List Byte → List Half
  | k + 1, hi :: lo :: rest => halfBE hi lo :: bePairs k rest
  | _, _ => []

/-- How many values a frame of `len` bytes with byte count `bc` gives (R130). -/
def extractCount (bc : Byte) (len : Nat) : Nat :=
  min bc.toNat (len - Config.minFrame) / 2

/-- The byte-count comparison (R129), on naturals. -/
def byteCountWarn (bc : Byte) (c : Half) : Bool :=
  bc.toNat != 2 * c.toNat

/-- decode (R125): length (R126), exception bit (R127), CRC (R128), in that order; then values (R130, R131) and the
warning (R129). -/
def decodeResponse (f : List Byte) (c : Half) : FrameResult :=
  match f with
  | _ :: fc :: bc :: rest =>
    if f.length < Config.minFrame then .short
    else if fc.getLsbD Config.excBit then .funcExc bc
    else if crcOk f then .ok (bePairs (extractCount bc f.length) rest) (byteCountWarn bc c)
    else .crcMismatch
  | _ => .short

end Sys2Proof.Machine
end

