-- ==== Sys2Proof/Machine/Ops.lean ====
section
/-! DEFINITION. The operations every command shares: the RAMs FB and VALUES, and raising and clearing a command error
(the block's only counterpart to taking an exception and returning from one, spec/60_exceptions.md R181, R189, R190). -/

namespace Sys2Proof.Machine

/-- The contents of entry `a`, none if it is unwritten (10_state.md R41, R42). -/
def Memory.read {w : Nat} : Memory w → Nat → Option (BitVec w)
  | [], _ => none
  | (b, v) :: m, a => if a = b then some v else Memory.read m a

/-- Entry `a` written with `v`; the list stays sorted (log 16). -/
def Memory.write {w : Nat} : Memory w → Nat → BitVec w → Memory w
  | [], a, v => [(a, v)]
  | (b, u) :: m, a, v =>
    if a < b then (a, v) :: (b, u) :: m
    else if a = b then (a, v) :: m
    else (b, u) :: Memory.write m a v

/-- Entries `a`, `a + 1`, … written with the values of a list, in order. -/
def Memory.writeList {w : Nat} (m : Memory w) (a : Nat) : List (BitVec w) → Memory w
  | [] => m
  | v :: vs => Memory.writeList (Memory.write m a v) (a + 1) vs

/-- Entries `a` to `a + n − 1`, none if one of them is unwritten. -/
def Memory.readSpan {w : Nat} (m : Memory w) (a : Nat) : Nat → Option (List (BitVec w))
  | 0 => some []
  | n + 1 =>
    match Memory.read m a, Memory.readSpan m (a + 1) n with
    | some v, some vs => some (v :: vs)
    | _, _ => none

/-- Every index listed is at least `lo`, and the indices rise strictly. -/
def Memory.sortedFrom {w : Nat} (lo : Nat) : Memory w → Bool
  | [] => true
  | (a, _) :: m => decide (lo ≤ a) && Memory.sortedFrom (a + 1) m

/-- The canonical form of a RAM of `cap` entries: indices strictly rising and below `cap`. No entry equals what an
unlisted index reads as, since an unlisted index has no contents. -/
def Memory.wf {w : Nat} (cap : Nat) (m : Memory w) : Bool :=
  Memory.sortedFrom 0 m && m.all (fun c => decide (c.1 < cap))

/-- `raise CmdError(F)` (60_exceptions.md R181): the ERR bit is set, and nothing else changes. -/
def raiseCmdError (f : CmdError) (s : State) : State :=
  match f with
  | .ill => { s with errIll := true }
  | .seq => { s with errSeq := true }
  | .ovf => { s with errOvf := true }

/-- A host write of `v` to ERR clears the bits where `v` has a 1 (20_memory.md R70, 60_exceptions.md R190). -/
def clearErr (v : Word) (s : State) : State :=
  { s with
    errIll := s.errIll && !v.getLsbD 0
    errSeq := s.errSeq && !v.getLsbD 1
    errOvf := s.errOvf && !v.getLsbD 2 }

/-- `FB[FB_LEN] <- b; FB_LEN <- FB_LEN + 1` (41_frame_codec.md R124, 42_stream_sync.md R159). FB[260] does not exist
(log 9). -/
def appendFb (b : Byte) (s : State) : Host.Outcome State Fault Refusal :=
  if s.fbLen < Config.fbCap then
    .next { s with fb := s.fb.write s.fbLen b, fbLen := s.fbLen + 1 }
  else .fault .fbIndex

end Sys2Proof.Machine
end

