-- ==== Sys2Proof/Machine/Operands.lean ====
section
/-! DEFINITION. Where commands take their operands from besides B (spec/30_encoding.md R83), and how a bus word holds
wire bytes and counts (spec/20_memory.md R74). -/

namespace Sys2Proof.Machine

/-- Four wire bytes in one bus word, the lower wire index in the less significant lane (20_memory.md R72, R74). -/
def lanes (b0 b1 b2 b3 : Byte) : Word :=
  b0.setWidth 32 ||| (b1.setWidth 32 <<< 8) ||| (b2.setWidth 32 <<< 16) ||| (b3.setWidth 32 <<< 24)

/-- A count in a register's low `w` bits, the bits above reading 0 (10_state.md R32, R35, R38, R39, R40; log 10). -/
def countWord (w n : Nat) : Word := (BitVec.ofNat w n).setWidth 32

/-- ENCODE's operands, read when it executes (41_frame_codec.md R120, R122), and the frame they make. -/
def requestFrame (s : State) : Vector Byte 8 :=
  encodeRequest s.reqAddr s.reqFc s.reqStart s.reqCount

/-- DECODE's frame, FB[0..FB_LEN) (41_frame_codec.md R134); none if a byte of it is unwritten, which
10_state.md R45 item 2 rules out. -/
def frameInFb (s : State) : Option (List Byte) :=
  s.fb.readSpan 0 s.fbLen

end Sys2Proof.Machine
end

