-- ==== Sys2Proof/Machine/Flags.lean ====
section
/-! DEFINITION. The block's status flags (spec/10_state.md R44): the codes of RESULT and STATE, the status words, and
what a DECODE writes into DEC_STATUS and DEC_VCOUNT. -/

namespace Sys2Proof.Machine

/-- HUNT, COUNT and PAYLOAD are the active states (10_state.md R37). -/
def SyncState.active : SyncState → Bool
  | .idle => false
  | .hunt => true
  | .count => true
  | .payload => true
  | .done => false
  | .fail => false

/-- SYNC_STATE.STATE's value (10_state.md R37). -/
def SyncState.code : SyncState → BitVec 3
  | .idle => 0
  | .hunt => 1
  | .count => 2
  | .payload => 3
  | .done => 4
  | .fail => 5

/-- DEC_STATUS.RESULT's value (10_state.md R34). -/
def DecResult.code : DecResult → BitVec 3
  | .noDecode => 0
  | .ok => 1
  | .short => 2
  | .funcExc => 3
  | .crcMismatch => 4

/-- ERR as read: ILL, SEQ, OVF in bits 0, 1, 2 (10_state.md R24). -/
def errWord (s : State) : Word :=
  (BitVec.ofBool s.errIll).setWidth 32 ||| ((BitVec.ofBool s.errSeq).setWidth 32 <<< 1)
    ||| ((BitVec.ofBool s.errOvf).setWidth 32 <<< 2)

/-- DEC_STATUS as read: RESULT in 2:0, BC_WARN in 3, EXC_CODE in 15:8 (10_state.md R33). -/
def decStatusWord (s : State) : Word :=
  s.result.code.setWidth 32 ||| ((BitVec.ofBool s.bcWarn).setWidth 32 <<< 3) ||| (s.excCode.setWidth 32 <<< 8)

/-- SYNC_STATE as read: STATE in 2:0, SADDR in 15:8 (10_state.md R36). -/
def syncStateWord (s : State) : Word :=
  s.sync.code.setWidth 32 ||| (s.saddr.setWidth 32 <<< 8)

/-- SYNC_HUNT as read: HUNTLEN in 6:0, LAST in 15:8 (10_state.md R38). -/
def syncHuntWord (s : State) : Word :=
  countWord 7 s.huntLen ||| (s.last.setWidth 32 <<< 8)

/-- What DECODE writes for one outcome (41_frame_codec.md R134): RESULT, BC_WARN, EXC_CODE and VCOUNT every time,
VALUES only on success (R135). -/
def recordDecode (r : FrameResult) (s : State) : State :=
  match r with
  | .ok vals warn =>
    { s with
      result := .ok, bcWarn := warn, excCode := 0x00#8, vcount := vals.length
      values := s.values.writeList 0 vals }
  | .short => { s with result := .short, bcWarn := false, excCode := 0x00#8, vcount := 0 }
  | .funcExc code => { s with result := .funcExc, bcWarn := false, excCode := code, vcount := 0 }
  | .crcMismatch => { s with result := .crcMismatch, bcWarn := false, excCode := 0x00#8, vcount := 0 }

end Sys2Proof.Machine
end

