-- ==== Sys2Proof/Machine/FrameCodec.lean ====
section
/-! DEFINITION. The frame codec's four commands (spec/41_frame_codec.md). The state checks are checks 3 and 4 of
spec/60_exceptions.md R182, in that order. -/

namespace Sys2Proof.Machine

/-- ENCODE (R122): the request frame goes into TX, all eight bytes. Legal in every synchronizer state. -/
def execEncode (s : State) : Host.Outcome State Fault Refusal :=
  .next { s with tx := requestFrame s }

/-- FB_CLEAR (R123): FB_LEN <- 0, STATE <- IDLE; FB's bytes stay. SEQ while the synchronizer is active. -/
def execFbClear (s : State) : Host.Outcome State Fault Refusal :=
  if s.sync.active then .next (raiseCmdError .seq s)
  else .next { s with fbLen := 0, sync := .idle }

/-- FB_PUSH b (R124): the byte is appended, STATE <- IDLE. SEQ while the synchronizer is active, OVF when FB is full. -/
def execFbPush (b : Byte) (s : State) : Host.Outcome State Fault Refusal :=
  if s.sync.active then .next (raiseCmdError .seq s)
  else if s.fbLen = Config.fbCap then .next (raiseCmdError .ovf s)
  else appendFb b { s with sync := .idle }

/-- DECODE (R134): FB[0..FB_LEN) decoded against REQ_COUNT. SEQ while the synchronizer is active. -/
def execDecode (s : State) : Host.Outcome State Fault Refusal :=
  if s.sync.active then .next (raiseCmdError .seq s)
  else
    match frameInFb s with
    | some f => .next (recordDecode (decodeResponse f s.reqCount) s)
    | none => .fault .fbUnwritten

end Sys2Proof.Machine
end

