-- ==== Sys2Proof/Machine/Synchronizer.lean ====
section
/-! DEFINITION. The stream synchronizer's three commands (spec/42_stream_sync.md). -/

namespace Sys2Proof.Machine

/-- SYNC_START (R152): SADDR latched, the search starts afresh, FB_LEN <- 0; FB's bytes stay. Legal in every state. -/
def execSyncStart (s : State) : Host.Outcome State Fault Refusal :=
  .next { s with
    saddr := s.reqAddr, sync := .hunt, huntLen := 0, last := 0x00#8, noise := 0, remain := 0, fbLen := 0 }

/-- The marker test of R154: the last two buffered bytes are SADDR and 0x03. -/
def markerCompleted (b : Byte) (s : State) : Bool :=
  decide (1 ≤ s.huntLen) && s.last == s.saddr && b == Config.markerFc

/-- A byte in HUNT: marker found (R155), else cap exceeded (R156), else the search goes on (R157). -/
def huntByte (b : Byte) (s : State) : State :=
  if markerCompleted b s then
    { s with
      noise := s.huntLen + 1 - 2, huntLen := s.huntLen + 1, last := b
      fb := (s.fb.write 0 s.saddr).write 1 Config.markerFc, fbLen := 2, sync := .count }
  else if s.huntLen + 1 > Config.huntCap then { s with huntLen := s.huntLen + 1, last := b, sync := .fail }
  else { s with huntLen := s.huntLen + 1, last := b }

/-- The byte in COUNT is the byte count (R158). -/
def countByte (b : Byte) (s : State) : State :=
  { s with fb := s.fb.write 2 b, fbLen := 3, remain := b.toNat + 2, sync := .payload }

/-- A byte in PAYLOAD is stored (R159), and the last one completes the frame (R160). REMAIN = 0 cannot be counted down
(log 9). -/
def payloadByte (b : Byte) (s : State) : Host.Outcome State Fault Refusal :=
  if s.remain = 0 then .fault .remainZero
  else appendFb b { s with remain := s.remain - 1, sync := if s.remain - 1 = 0 then .done else .payload }

/-- SYNC_BYTE b (R153), by STATE; SEQ outside a search (R161). -/
def execSyncByte (b : Byte) (s : State) : Host.Outcome State Fault Refusal :=
  match s.sync with
  | .hunt => .next (huntByte b s)
  | .count => .next (countByte b s)
  | .payload => payloadByte b s
  | .idle => .next (raiseCmdError .seq s)
  | .done => .next (raiseCmdError .seq s)
  | .fail => .next (raiseCmdError .seq s)

/-- SYNC_ABORT (R165): an active search fails, all else stays; outside a search it has no effect and is no error. -/
def execSyncAbort (s : State) : Host.Outcome State Fault Refusal :=
  if s.sync.active then .next { s with sync := .fail } else .next s

end Sys2Proof.Machine
end

