-- ==== Sys2Proof/Machine/Dispatch.lean ====
section
/-! DEFINITION. One arm per command of spec/30_encoding.md R82. -/

namespace Sys2Proof.Machine

/-- The effect of a command that decoded (check 5 of 60_exceptions.md R182; each meaning makes checks 3 and 4 itself). -/
def exec (i : Instr) (s : State) : Host.Outcome State Fault Refusal :=
  match i with
  | .crcInit => Sys2Proof.Machine.execCrcInit s
  | .crcByte b => Sys2Proof.Machine.execCrcByte b s
  | .encode => Sys2Proof.Machine.execEncode s
  | .fbClear => Sys2Proof.Machine.execFbClear s
  | .fbPush b => Sys2Proof.Machine.execFbPush b s
  | .decode => Sys2Proof.Machine.execDecode s
  | .syncStart => Sys2Proof.Machine.execSyncStart s
  | .syncByte b => Sys2Proof.Machine.execSyncByte b s
  | .syncAbort => Sys2Proof.Machine.execSyncAbort s

end Sys2Proof.Machine
end

