-- ==== Sys2Proof/Machine/Window.lean ====
section
/-! DEFINITION. The register window (spec/20_memory.md): which register an offset names (R61), what a read returns
(R65, R66, R69, R71, R72), and what a write other than a command does (R65, R67, R68, R70). -/

namespace Sys2Proof.Machine

/-- The rows of the address map with one offset each (R61). -/
def addressMap : List (Nat × Reg) :=
  [(0x000, .cmd), (0x004, .err), (0x008, .crc), (0x00C, .reqAddr), (0x010, .reqFc), (0x014, .reqStart),
   (0x018, .reqCount), (0x01C, .txLo), (0x020, .txHi), (0x024, .fbLen), (0x028, .decStatus), (0x02C, .decVcount),
   (0x030, .syncState), (0x034, .syncHunt), (0x038, .syncNoise), (0x03C, .syncRemain)]

/-- The register at an offset of the window that is a multiple of 4 (R61): VALUES, FB_WIN, a row of the map above, or
reserved. -/
def regAt (off : Nat) : Reg :=
  if 0x200 ≤ off ∧ off ≤ 0x3F8 then .values ((off - 0x200) / 4)
  else if 0x400 ≤ off ∧ off ≤ 0x500 then .fbWin ((off - 0x400) / 4)
  else
    match addressMap.lookup off with
    | some r => r
    | none => .reserved

/-- FB byte `i` as a host read sees it: its contents, or draw `d` if it is unwritten (R72, U1). -/
def fbLane (s : State) (i d : Nat) : Byte :=
  match s.fb.read i with
  | some b => b
  | none => Config.freeByte d

/-- VALUES[i] as a host read sees it: its contents, or draw `d` if it is unwritten, zero-extended (R71, U1). -/
def valuesWord (s : State) (i d : Nat) : Word :=
  match s.values.read i with
  | some v => v.setWidth 32
  | none => (Config.freeHalf d).setWidth 32

/-- FB_WIN[k]: bytes 4k to 4k+3, the lowest in the least significant lane (R72). -/
def fbWinWord (s : State) (k : Nat) : Word :=
  lanes (fbLane s (4 * k) s.draws) (fbLane s (4 * k + 1) (s.draws + 1))
    (fbLane s (4 * k + 2) (s.draws + 2)) (fbLane s (4 * k + 3) (s.draws + 3))

/-- The value a read of a register returns. -/
def readReg (r : Reg) (s : State) : Word :=
  match r with
  | .cmd => 0#32
  | .err => errWord s
  | .crc => s.acc.setWidth 32
  | .reqAddr => s.reqAddr.setWidth 32
  | .reqFc => s.reqFc.setWidth 32
  | .reqStart => s.reqStart.setWidth 32
  | .reqCount => s.reqCount.setWidth 32
  | .txLo => lanes s.tx[0] s.tx[1] s.tx[2] s.tx[3]
  | .txHi => lanes s.tx[4] s.tx[5] s.tx[6] s.tx[7]
  | .fbLen => countWord 9 s.fbLen
  | .decStatus => decStatusWord s
  | .decVcount => countWord 7 s.vcount
  | .syncState => syncStateWord s
  | .syncHunt => syncHuntWord s
  | .syncNoise => countWord 7 s.noise
  | .syncRemain => countWord 9 s.remain
  | .values i => valuesWord s i s.draws
  | .fbWin k => fbWinWord s k
  | .reserved => 0#32

/-- How many draws a read of a register may use: one per VALUES entry, one per lane of FB_WIN (U1, log 4). -/
def drawsOf : Reg → Nat
  | .values _ => 1
  | .fbWin _ => 4
  | _ => 0

/-- A host read: the word returned is recorded and the draws are counted; the block itself does not change
(R66, log 3, log 4). -/
def memRead (off : Nat) (s : State) : State :=
  { s with readData := some (readReg (regAt off) s), draws := s.draws + drawsOf (regAt off) }

/-- A host write to a register other than CMD: ERR clears (R70), the request registers store their defined bits (R67),
read-only and reserved offsets ignore it (R68, R65). CMD is Machine/Command.lean's. -/
def writeReg (r : Reg) (v : Word) (s : State) : State :=
  match r with
  | .cmd => s
  | .err => clearErr v s
  | .reqAddr => { s with reqAddr := v.extractLsb' 0 8 }
  | .reqFc => { s with reqFc := v.extractLsb' 0 8 }
  | .reqStart => { s with reqStart := v.extractLsb' 0 16 }
  | .reqCount => { s with reqCount := v.extractLsb' 0 16 }
  | .crc => s
  | .txLo => s
  | .txHi => s
  | .fbLen => s
  | .decStatus => s
  | .decVcount => s
  | .syncState => s
  | .syncHunt => s
  | .syncNoise => s
  | .syncRemain => s
  | .values _ => s
  | .fbWin _ => s
  | .reserved => s

end Sys2Proof.Machine
end

