-- ==== Sys2Proof/WellFormed.lean ====
section
/-! DEFINITION. What makes a command and a host access well formed. -/

namespace Sys2Proof

/-- Every command is well formed: its operand is a byte, and no value of B causes ILL (spec/60_exceptions.md R183). -/
def Instr.wf : Instr → Bool
  | .crcInit => true
  | .crcByte _ => true
  | .encode => true
  | .fbClear => true
  | .fbPush _ => true
  | .decode => true
  | .syncStart => true
  | .syncByte _ => true
  | .syncAbort => true

/-- An access the block accepts: 32 bits wide, at a multiple of 4, inside the window
(spec/20_memory.md R62, R63, R64). -/
def Machine.Access.wf (a : Machine.Access) : Bool :=
  a.size == .word && a.off % 4 == 0 && decide (a.off < Config.windowBytes)

end Sys2Proof
end

