-- ==== Sys2Proof/Machine/Command.lean ====
section
/-! DEFINITION. One host access (spec/20_memory.md R62 to R69), a write to CMD among them (spec/60_exceptions.md R182),
and the reset event (spec/70_reset_and_hazards.md R210). Step.lean calls these. -/

namespace Sys2Proof.Machine

/-- A write of `v` to CMD: a word that is no command raises ILL (R182 checks 1 and 2, R183), any other runs. -/
def runCommand (v : Word) (s : State) : Host.Outcome State Fault Refusal :=
  match decode v with
  | .error _ => .next (raiseCmdError .ill s)
  | .ok i => exec i s

/-- `MemWrite(off, 4, v)`. -/
def memWrite (off : Nat) (v : Word) (s : State) : Host.Outcome State Fault Refusal :=
  match regAt off with
  | .cmd => runCommand v s
  | r => .next (writeReg r v s)

/-- Why the block does not accept an access, if it does not (R63, R64; which reason is named first is log 8). -/
def accessRefusal (a : Access) : Option Refusal :=
  if a.size ≠ .word then some .unsupportedSize
  else if a.off % 4 ≠ 0 then some .misalignedOffset
  else if Config.windowBytes ≤ a.off then some .outsideWindow
  else none

/-- One host access: refused, or a read or write of the window. -/
def performAccess (a : Access) (s : State) : Host.Outcome State Fault Refusal :=
  match accessRefusal a with
  | some r => .refused r
  | none =>
    match a with
    | .read _ off => .next (memRead off s)
    | .write _ off v => memWrite off v s

/-- Reset (R210): every field of the block at its reset value. What the host does next and the draws used so far are
no state of the block and stay (log 5, log 6). -/
def applyReset (s : State) : State :=
  { State.reset with inputs := s.inputs, draws := s.draws }

/-- The host's next event leaves the script as it is performed; no data has been returned yet (log 1, log 3). -/
def takeEvent (rest : List HostEvent) (s : State) : State :=
  { s with inputs := rest, readData := none }

/-- One event of the host. -/
def performEvent (e : HostEvent) (s : State) : Host.Outcome State Fault Refusal :=
  match e with
  | .access a => performAccess a s
  | .reset => .next (applyReset s)

/-- The host's script with a write of the command word `v` to CMD put first (log 1). -/
def placeCommand (v : Word) (s : State) : State :=
  { s with inputs := .access (.write .word 0x000 v) :: s.inputs }

end Sys2Proof.Machine
end

