-- ==== Sys2Proof/Machine/Step.lean ====
section
/-! DEFINITION. One step of the block: the host's next event (spec/00_scope.md R16, spec/20_memory.md R75). -/

namespace Sys2Proof.Machine

/-- The block takes one step per host event, in the order of the script, and none without one (00_scope.md R16; log 2). -/
def step (s : State) : Host.Outcome State Fault Refusal :=
  match s.inputs with
  | [] => .refused .noHostAccess
  | e :: rest => performEvent e (takeEvent rest s)

/-- The command word whose low `nbits` bits are `w`, placed where the very next step runs it: first in the host's
script, as a write to CMD (log 1, log 15). -/
def State.withFetchWord (s : State) (nbits w : Nat) : State :=
  placeCommand (BitVec.ofNat 32 (w % 2 ^ nbits)) s

end Sys2Proof.Machine
end

