-- ==== Sys2Proof/Machine/Channels.lean ====
section
/-! DEFINITION. N_CHANNELS block instances that share no state (spec/10_state.md R47, spec/60_exceptions.md R195). -/

namespace Sys2Proof.Machine

/-- A platform's instances, one per channel: the first and the others, so that N_CHANNELS, which the platform chooses,
is at least 1 (00_scope.md R10; log 12). -/
structure Platform where
  channel0 : State
  others : List State
deriving DecidableEq, Repr

/-- All instances, channel 0 first. -/
def Platform.channels (p : Platform) : List State := p.channel0 :: p.others

/-- N_CHANNELS (00_scope.md R10). -/
def Platform.nChannels (p : Platform) : Nat := p.channels.length

/-- The platform with the state of channel `c` replaced. -/
def Platform.setChannel (p : Platform) (c : Nat) (t : State) : Platform :=
  match c with
  | 0 => { p with channel0 := t }
  | d + 1 => { p with others := p.others.set d t }

/-- Channel `c` takes a step of its own; which channel steps next is open (20_memory.md R76: no order between
instances is defined), so it is an argument. -/
def Platform.stepAt (p : Platform) (c : Nat) : Host.Outcome Platform Fault Refusal :=
  match p.channels[c]? with
  | none => .refused .noSuchChannel
  | some s =>
    match step s with
    | .next t => .next (p.setChannel c t)
    | .fault r => .fault r
    | .refused r => .refused r

end Sys2Proof.Machine
end

