-- ==== Sys2Proof/Safety.lean ====
section
/-! DEFINITION. What the statements are about: the invariants of spec/10_state.md R45, the stronger invariant every step
keeps, runs of commands, and words for comparing two runs. -/

namespace Sys2Proof.Machine

/-- The eight invariants of 10_state.md R45, item by item. -/
structure R45 (s : State) : Prop where
  /-- Item 1. -/
  fbLen_le : s.fbLen ≤ Config.fbCap
  /-- Item 2. -/
  fb_written : ∀ i, i < s.fbLen → (s.fb.read i).isSome
  /-- Item 3, first half. -/
  vcount_le : s.vcount ≤ Config.valuesCap
  /-- Item 3, second half. -/
  values_written : ∀ i, i < s.vcount → (s.values.read i).isSome
  /-- Item 4. -/
  in_count : s.sync = .count →
    s.fbLen = 2 ∧ s.fb.read 0 = some s.saddr ∧ s.fb.read 1 = some 0x03#8
  /-- Item 5. -/
  in_payload : s.sync = .payload →
    3 ≤ s.fbLen ∧ ∃ bc, s.fb.read 2 = some bc ∧ s.fbLen + s.remain = 5 + bc.toNat
  /-- Item 6. -/
  in_done : s.sync = .done →
    (∃ bc, s.fb.read 2 = some bc ∧ s.fbLen = 5 + bc.toNat) ∧
      s.fb.read 0 = some s.saddr ∧ s.fb.read 1 = some 0x03#8
  /-- Item 7. -/
  in_hunt : s.sync = .hunt → s.fbLen = 0 ∧ s.huntLen ≤ 100
  /-- Item 8, first half. -/
  warn_only_ok : s.result ≠ .ok → s.bcWarn = false
  /-- Item 8, second half. -/
  code_only_exc : s.result ≠ .funcExc → s.excCode = 0x00#8

/-- What every step keeps: R45, the RAMs' canonical form, the field ranges of 10_state.md R22, and of PAYLOAD what R45
does not say but its items 4 and 6 need (log 17): a byte is still to come, and FB begins with the marker. -/
structure BlockInv (s : State) : Prop extends R45 s where
  fb_wf : s.fb.wf Config.fbCap = true
  values_wf : s.values.wf Config.valuesCap = true
  payload_marker : s.sync = .payload →
    1 ≤ s.remain ∧ s.fb.read 0 = some s.saddr ∧ s.fb.read 1 = some 0x03#8
  huntLen_le : s.huntLen ≤ 101
  noise_le : s.noise ≤ 99
  remain_le : s.remain ≤ 257

/-- An event the block does not refuse: a reset, or a well-formed access (20_memory.md R62). -/
def HostEvent.wf : HostEvent → Bool
  | .access a => a.wf
  | .reset => true

/-- Commands executed one after another, stopping at the first that stops. -/
def execAll : List Instr → State → Host.Outcome State Fault Refusal
  | [], s => .next s
  | i :: is, s =>
    match exec i s with
    | .next t => execAll is t
    | .fault r => .fault r
    | .refused r => .refused r

/-- The bytes of a stream handed over with one SYNC_BYTE each (30_encoding.md R93's FEED). -/
def feed (stream : List Byte) (s : State) : Host.Outcome State Fault Refusal :=
  execAll (stream.map Instr.syncByte) s

/-- An outcome with its next state changed by `f`. -/
def mapNext (f : State → State) : Host.Outcome State Fault Refusal → Host.Outcome State Fault Refusal
  | .next s => .next (f s)
  | .fault r => .fault r
  | .refused r => .refused r

/-- The marker completes at index `i` of a stream for the address `a` (42_stream_sync.md R168). -/
def markerAt (a : Byte) (stream : List Byte) (i : Nat) : Prop :=
  1 ≤ i ∧ stream[i - 1]? = some a ∧ stream[i]? = some 0x03#8

/-- A frame with bit `j` of its byte `i` flipped (41_frame_codec.md R137). -/
def flipBit (f : List Byte) (i j : Nat) : List Byte :=
  f.modify i (fun b => b ^^^ (0x01#8 <<< j))

/-- The FB bytes SYNC_BYTE stores to in a state: the marker's two when it is completed, the byte count's, the next
payload byte's, or none (42_stream_sync.md R155, R158, R159). -/
def syncStores (b : Byte) (s : State) : List Nat :=
  match s.sync with
  | .hunt => if markerCompleted b s then [0, 1] else []
  | .count => [2]
  | .payload => [s.fbLen]
  | .idle => []
  | .done => []
  | .fail => []

/-- The command word with the fields RSV, B and OP (30_encoding.md R80). -/
def fieldsWord (rsv : Half) (b op : Byte) : Word :=
  (rsv.setWidth 32 <<< 16) ||| (b.setWidth 32 <<< 8) ||| op.setWidth 32

/-- The byte a CRC_BYTE feeds; none for any other command. -/
def crcOperand : Instr → Option Byte
  | .crcByte b => some b
  | .crcInit => none
  | .encode => none
  | .fbClear => none
  | .fbPush _ => none
  | .decode => none
  | .syncStart => none
  | .syncByte _ => none
  | .syncAbort => none

/-- The state with one host access first in its script. -/
def withAccess (a : Access) (rest : List HostEvent) (s : State) : State :=
  { s with inputs := .access a :: rest }

end Sys2Proof.Machine
end

