-- ==== Sys2Proof/Certificates/Slice0/Obligations.lean ====
section
/-! DEFINITION. The statements for the provers. `log n` is notes/assumptions/n.md; the fields `inputs`, `readData` and
`draws` are the model's own (log 1, log 3, log 4). A command word is written `fieldsWord RSV B OP` (30_encoding.md R80). -/

open Sys2Proof Sys2Proof.Machine

/-! ### Encoding -/

/-- 30_encoding.md R94, and that the decoder reads each of those words as its command. -/
def Obligations.CommandWordsAreTheSpecs : Prop :=
  ∀ b : Byte,
    (encode .crcInit = 0x00000001#32 ∧ decode 0x00000001#32 = .ok .crcInit) ∧
    (encode (.crcByte b) = (b.setWidth 32 <<< 8) ||| 0x02#32 ∧
      decode ((b.setWidth 32 <<< 8) ||| 0x02#32) = .ok (.crcByte b)) ∧
    (encode .encode = 0x00000010#32 ∧ decode 0x00000010#32 = .ok .encode) ∧
    (encode .fbClear = 0x00000020#32 ∧ decode 0x00000020#32 = .ok .fbClear) ∧
    (encode (.fbPush b) = (b.setWidth 32 <<< 8) ||| 0x21#32 ∧
      decode ((b.setWidth 32 <<< 8) ||| 0x21#32) = .ok (.fbPush b)) ∧
    (encode .decode = 0x00000022#32 ∧ decode 0x00000022#32 = .ok .decode) ∧
    (encode .syncStart = 0x00000030#32 ∧ decode 0x00000030#32 = .ok .syncStart) ∧
    (encode (.syncByte b) = (b.setWidth 32 <<< 8) ||| 0x31#32 ∧
      decode ((b.setWidth 32 <<< 8) ||| 0x31#32) = .ok (.syncByte b)) ∧
    (encode .syncAbort = 0x00000032#32 ∧ decode 0x00000032#32 = .ok .syncAbort)

/-- Decoding the word of a command gives the command back, every operand at every value. -/
def Obligations.DecodeOfEncodeIsTheCommand : Prop :=
  ∀ i : Instr, i.wf = true →
    decode (encode i) = .ok i ∧ decodeTableWord 32 (encode i).toNat = some i

/-- 30_encoding.md R82: the command is selected by `v & 0xFFFF00FF` alone, B is its operand where it has one, and a
word that matches no row is rejected with ILL. -/
def Obligations.DecoderSelectsByMaskedWord : Prop :=
  ∀ (v : Word) (s : State),
    (∀ i, decode v = .ok i ↔
      match i with
      | .crcInit => v &&& 0xFFFF00FF#32 = 0x01#32
      | .crcByte b => v &&& 0xFFFF00FF#32 = 0x02#32 ∧ v.extractLsb' 8 8 = b
      | .encode => v &&& 0xFFFF00FF#32 = 0x10#32
      | .fbClear => v &&& 0xFFFF00FF#32 = 0x20#32
      | .fbPush b => v &&& 0xFFFF00FF#32 = 0x21#32 ∧ v.extractLsb' 8 8 = b
      | .decode => v &&& 0xFFFF00FF#32 = 0x22#32
      | .syncStart => v &&& 0xFFFF00FF#32 = 0x30#32
      | .syncByte b => v &&& 0xFFFF00FF#32 = 0x31#32 ∧ v.extractLsb' 8 8 = b
      | .syncAbort => v &&& 0xFFFF00FF#32 = 0x32#32) ∧
    (v &&& 0xFFFF00FF#32 ∉
        [0x01#32, 0x02#32, 0x10#32, 0x20#32, 0x21#32, 0x22#32, 0x30#32, 0x31#32, 0x32#32] →
      runCommand v s = .next { s with errIll := true })

/-- 60_exceptions.md R183 and 30_encoding.md R81: which words raise ILL, and that B has no part in it. -/
def Obligations.IllegalWordsAreExactly : Prop :=
  ∀ (rsv : Half) (b b' op : Byte) (s : State),
    ((∃ r, decode (fieldsWord rsv b op) = .error r) ↔
      rsv ≠ 0#16 ∨ op ∉ [0x01#8, 0x02#8, 0x10#8, 0x20#8, 0x21#8, 0x22#8, 0x30#8, 0x31#8, 0x32#8]) ∧
    (rsv ≠ 0#16 ∨ op ∉ [0x01#8, 0x02#8, 0x10#8, 0x20#8, 0x21#8, 0x22#8, 0x30#8, 0x31#8, 0x32#8] →
      runCommand (fieldsWord rsv b op) s = .next { s with errIll := true }) ∧
    ((∃ i, decode (fieldsWord rsv b op) = .ok i) ↔ ∃ i, decode (fieldsWord rsv b' op) = .ok i)

/-! ### Steps and the host interface -/

/-- A step whose event is a write of `v` to CMD runs the command word `v` at the state with that event taken (log 1,
log 3): `exec` of the command it decodes to, and ERR.ILL set and nothing else changed for a word that is no command
(20_memory.md R69, 60_exceptions.md R181, R183). -/
def Obligations.StepRunsTheDecodedCommand : Prop :=
  ∀ (s : State) (v : Word) (rest : List HostEvent),
    step (withAccess (.write .word 0x000 v) rest s) = runCommand v { s with inputs := rest, readData := none } ∧
    step (s.withFetchWord 32 v.toNat) = runCommand v { s with readData := none } ∧
    (∀ i, decode v = .ok i → i.wf = true →
      step (withAccess (.write .word 0x000 v) rest s) = exec i { s with inputs := rest, readData := none } ∧
      step (s.withFetchWord 32 v.toNat) = exec i { s with readData := none }) ∧
    (∀ r, decode v = .error r →
      step (withAccess (.write .word 0x000 v) rest s) =
        .next { s with inputs := rest, readData := none, errIll := true })

/-- One step performs the first event of the host's script and no other. -/
def Obligations.StepPerformsTheFirstEventOnly : Prop :=
  ∀ s t : State, step s = .next t →
    ∃ e, s.inputs = e :: t.inputs ∧ ∀ other : List HostEvent,
      step { s with inputs := e :: other } = .next { t with inputs := other }

/-- 20_memory.md R63: an access of another width than 32 bits, or at an offset that is no multiple of 4, has no outcome. -/
def Obligations.MeaninglessAccessesAreRefused : Prop :=
  ∀ (s : State) (a : Access) (rest : List HostEvent),
    a.size ≠ .word ∨ a.off % 4 ≠ 0 → ∃ r, step (withAccess a rest s) = .refused r

/-- The other steps that do not happen: an access outside the window (93_implementation_defined.md U3), and no access
at all (log 2). -/
def Obligations.NoStepOutsideTheWindowOrWithoutAnAccess : Prop :=
  ∀ (s : State) (a : Access) (rest : List HostEvent),
    (4096 ≤ a.off → ∃ r, step (withAccess a rest s) = .refused r) ∧
    step { s with inputs := [] } = .refused .noHostAccess

/-- The reset event puts every field of 10_state.md R22 at its reset value; the host's script and the count of free
draws are no state of the block (log 5, log 6). -/
def Obligations.ResetEventRestoresTheResetState : Prop :=
  ∀ (s : State) (rest : List HostEvent),
    step { s with inputs := .reset :: rest } =
      .next { State.reset with inputs := rest, readData := none, draws := s.draws }

/-- 70_reset_and_hazards.md R211, field by field and as the host reads them; and no FB byte or VALUES entry written. -/
def Obligations.ResetLeavesTheStatedValues : Prop :=
  (State.reset.errIll = false ∧ State.reset.errSeq = false ∧ State.reset.errOvf = false) ∧
  State.reset.acc = 0xFFFF#16 ∧
  (State.reset.reqAddr = 0x00#8 ∧ State.reset.reqFc = 0x03#8 ∧ State.reset.reqStart = 0#16 ∧
    State.reset.reqCount = 0#16) ∧
  State.reset.tx.toList = [0#8, 0#8, 0#8, 0#8, 0#8, 0#8, 0#8, 0#8] ∧
  State.reset.fbLen = 0 ∧
  (State.reset.result = .noDecode ∧ State.reset.bcWarn = false ∧ State.reset.excCode = 0#8) ∧
  State.reset.vcount = 0 ∧
  (State.reset.sync = .idle ∧ State.reset.saddr = 0#8) ∧
  (State.reset.huntLen = 0 ∧ State.reset.last = 0#8) ∧
  State.reset.noise = 0 ∧ State.reset.remain = 0 ∧
  (∀ i, State.reset.fb.read i = none ∧ State.reset.values.read i = none) ∧
  (∀ p ∈ [(0x000, 0x00000000#32), (0x004, 0x00000000#32), (0x008, 0x0000FFFF#32), (0x00C, 0x00000000#32),
      (0x010, 0x00000003#32), (0x014, 0x00000000#32), (0x018, 0x00000000#32), (0x01C, 0x00000000#32),
      (0x020, 0x00000000#32), (0x024, 0x00000000#32), (0x028, 0x00000000#32), (0x02C, 0x00000000#32),
      (0x030, 0x00000000#32), (0x034, 0x00000000#32), (0x038, 0x00000000#32), (0x03C, 0x00000000#32)],
    readReg (regAt p.1) State.reset = p.2)

/-! ### The register window -/

/-- A read of an accepted offset returns the register's word and changes nothing of the block; the model's own fields
record the word and count the draws (log 3, log 4). A read of CMD returns 0 in every state (20_memory.md R69,
10_state.md R23). -/
def Obligations.ReadsReturnTheRegisterAndChangeNothing : Prop :=
  (∀ (s : State) (off : Nat) (rest : List HostEvent), off % 4 = 0 → off < 4096 →
    ∃ n, step (withAccess (.read .word off) rest s) =
      .next { s with inputs := rest, readData := some (readReg (regAt off) s), draws := s.draws + n }) ∧
  (∀ (s : State) (rest : List HostEvent),
    readReg (regAt 0x000) s = 0x00000000#32 ∧
    step (withAccess (.read .word 0x000) rest s) =
      .next { s with inputs := rest, readData := some 0x00000000#32 })

/-- 20_memory.md R66's "reading an offset twice": true of every register, and of VALUES and FB_WIN where what is read
was written; an unwritten entry may read differently each time (U1, log 4). -/
def Obligations.ReadingTwiceGivesTheSameWord : Prop :=
  ∀ (s t : State) (off off' : Nat) (rest : List HostEvent),
    step (withAccess (.read .word off') rest s) = .next t →
    (∀ i, regAt off = .values i → (s.values.read i).isSome) →
    (∀ k, regAt off = .fbWin k → ∀ j, j < 4 → (s.fb.read (4 * k + j)).isSome) →
      readReg (regAt off) t = readReg (regAt off) s

/-- 20_memory.md R67. -/
def Obligations.RequestRegisterWritesStoreTheDefinedBits : Prop :=
  ∀ (s : State) (v : Word) (rest : List HostEvent),
    step (withAccess (.write .word 0x00C v) rest s) =
      .next { s with inputs := rest, readData := none, reqAddr := v.extractLsb' 0 8 } ∧
    step (withAccess (.write .word 0x010 v) rest s) =
      .next { s with inputs := rest, readData := none, reqFc := v.extractLsb' 0 8 } ∧
    step (withAccess (.write .word 0x014 v) rest s) =
      .next { s with inputs := rest, readData := none, reqStart := v.extractLsb' 0 16 } ∧
    step (withAccess (.write .word 0x018 v) rest s) =
      .next { s with inputs := rest, readData := none, reqCount := v.extractLsb' 0 16 }

/-- 20_memory.md R70. -/
def Obligations.ErrIsWriteOneToClear : Prop :=
  ∀ (s : State) (v : Word) (rest : List HostEvent),
    step (withAccess (.write .word 0x004 v) rest s) =
      .next { s with
        inputs := rest, readData := none
        errIll := s.errIll && !v.getLsbD 0, errSeq := s.errSeq && !v.getLsbD 1
        errOvf := s.errOvf && !v.getLsbD 2 } ∧
    step (withAccess (.write .word 0x004 0#32) rest s) = .next { s with inputs := rest, readData := none }

/-- 20_memory.md R68: no effect, so no ERR bit either. -/
def Obligations.ReadOnlyWritesHaveNoEffect : Prop :=
  ∀ (s : State) (v : Word) (off : Nat) (rest : List HostEvent),
    off ∈ [0x008, 0x01C, 0x020, 0x024, 0x028, 0x02C, 0x030, 0x034, 0x038, 0x03C] ∨
      (∃ i, i ≤ 126 ∧ off = 0x200 + 4 * i) ∨ (∃ k, k ≤ 64 ∧ off = 0x400 + 4 * k) →
    step (withAccess (.write .word off v) rest s) = .next { s with inputs := rest, readData := none }

/-- 20_memory.md R65: reserved offsets, and the reserved bits of every register and VALUES entry. That bits 31:16 of an
UNWRITTEN entry read 0 is the model's choice: R71 says an unspecified u32, and the model follows U1's 16 bits (log 4). -/
def Obligations.ReservedOffsetsAndBitsReadZeroAndIgnoreWrites : Prop :=
  (∀ (s : State) (v : Word) (off : Nat) (rest : List HostEvent), off % 4 = 0 →
    (0x040 ≤ off ∧ off ≤ 0x1FC) ∨ off = 0x3FC ∨ (0x504 ≤ off ∧ off ≤ 0xFFC) →
      step (withAccess (.read .word off) rest s) =
        .next { s with inputs := rest, readData := some 0x00000000#32 } ∧
      step (withAccess (.write .word off v) rest s) = .next { s with inputs := rest, readData := none }) ∧
  (∀ s : State, ∀ p ∈ [(0x004, 0x00000007#32), (0x008, 0x0000FFFF#32), (0x00C, 0x000000FF#32), (0x010, 0x000000FF#32),
      (0x014, 0x0000FFFF#32), (0x018, 0x0000FFFF#32), (0x024, 0x000001FF#32), (0x028, 0x0000FF0F#32),
      (0x02C, 0x0000007F#32), (0x030, 0x0000FF07#32), (0x034, 0x0000FF7F#32), (0x038, 0x0000007F#32),
      (0x03C, 0x000001FF#32)],
    readReg (regAt p.1) s &&& ~~~p.2 = 0#32) ∧
  (∀ (s : State) (i : Nat), i ≤ 126 → readReg (regAt (0x200 + 4 * i)) s &&& 0xFFFF0000#32 = 0#32) ∧
  (∀ (s : State) (v w : Word) (rest : List HostEvent),
    ∀ p ∈ [(0x004, 0x00000007#32), (0x00C, 0x000000FF#32), (0x010, 0x000000FF#32), (0x014, 0x0000FFFF#32),
      (0x018, 0x0000FFFF#32)],
    v &&& p.2 = w &&& p.2 →
      step (withAccess (.write .word p.1 v) rest s) = step (withAccess (.write .word p.1 w) rest s))

/-- What the counts and status registers read as, as numbers: 10_state.md R24 to R29, R32 to R40. -/
def Obligations.RegistersReadTheirFields : Prop :=
  ∀ s : State, BlockInv s →
    (readReg (regAt 0x004) s).toNat = s.errIll.toNat + 2 * s.errSeq.toNat + 4 * s.errOvf.toNat ∧
    (readReg (regAt 0x008) s).toNat = s.acc.toNat ∧
    (readReg (regAt 0x00C) s).toNat = s.reqAddr.toNat ∧
    (readReg (regAt 0x010) s).toNat = s.reqFc.toNat ∧
    (readReg (regAt 0x014) s).toNat = s.reqStart.toNat ∧
    (readReg (regAt 0x018) s).toNat = s.reqCount.toNat ∧
    (readReg (regAt 0x024) s).toNat = s.fbLen ∧
    (readReg (regAt 0x028) s).toNat =
      (match s.result with
        | .noDecode => 0
        | .ok => 1
        | .short => 2
        | .funcExc => 3
        | .crcMismatch => 4) + 8 * s.bcWarn.toNat + 256 * s.excCode.toNat ∧
    (readReg (regAt 0x02C) s).toNat = s.vcount ∧
    (readReg (regAt 0x030) s).toNat =
      (match s.sync with
        | .idle => 0
        | .hunt => 1
        | .count => 2
        | .payload => 3
        | .done => 4
        | .fail => 5) + 256 * s.saddr.toNat ∧
    (readReg (regAt 0x034) s).toNat = s.huntLen + 256 * s.last.toNat ∧
    (readReg (regAt 0x038) s).toNat = s.noise ∧
    (readReg (regAt 0x03C) s).toNat = s.remain

/-- 10_state.md R30 and R31. -/
def Obligations.TxWordsHoldTheLowerIndexLower : Prop :=
  (∀ s : State,
    readReg (regAt 0x01C) s =
      s.tx[0].setWidth 32 ||| (s.tx[1].setWidth 32 <<< 8) ||| (s.tx[2].setWidth 32 <<< 16)
        ||| (s.tx[3].setWidth 32 <<< 24) ∧
    (readReg (regAt 0x01C) s).extractLsb' 0 8 = s.tx[0] ∧ (readReg (regAt 0x01C) s).extractLsb' 8 8 = s.tx[1] ∧
    (readReg (regAt 0x01C) s).extractLsb' 16 8 = s.tx[2] ∧ (readReg (regAt 0x01C) s).extractLsb' 24 8 = s.tx[3] ∧
    (readReg (regAt 0x020) s).extractLsb' 0 8 = s.tx[4] ∧ (readReg (regAt 0x020) s).extractLsb' 8 8 = s.tx[5] ∧
    (readReg (regAt 0x020) s).extractLsb' 16 8 = s.tx[6] ∧ (readReg (regAt 0x020) s).extractLsb' 24 8 = s.tx[7]) ∧
  (∀ s : State, ∃ t, exec .encode s = .next t ∧
    (readReg (regAt 0x020) t).extractLsb' 16 16 =
      crc16 [s.reqAddr, s.reqFc, s.reqStart.extractLsb' 8 8, s.reqStart.extractLsb' 0 8,
        s.reqCount.extractLsb' 8 8, s.reqCount.extractLsb' 0 8]) ∧
  (∀ (s : State) (v : Word) (rest : List HostEvent),
    step (withAccess (.write .word 0x01C v) rest s) = .next { s with inputs := rest, readData := none } ∧
    step (withAccess (.write .word 0x020 v) rest s) = .next { s with inputs := rest, readData := none }) ∧
  readReg (regAt 0x01C) State.reset = 0x00000000#32 ∧ readReg (regAt 0x020) State.reset = 0x00000000#32

/-- 20_memory.md R71. That an unwritten entry reads as a free value of 16 bits zero-extended is the model's choice: R71
says an unspecified u32, and the model follows U1 (log 4). Which value it is, is open. -/
def Obligations.ValuesWindowReadsTheEntries : Prop :=
  ∀ (s : State) (i : Nat) (rest : List HostEvent), i ≤ 126 →
    ∃ t, step (withAccess (.read .word (0x200 + 4 * i)) rest s) = .next t ∧
      ∃ w, t.readData = some w ∧
        (∀ x, s.values.read i = some x → w = x.setWidth 32) ∧
        (s.values.read i = none → w = (Config.freeHalf s.draws).setWidth 32)

/-- 20_memory.md R72, lane by lane; an unwritten lane reads as a free value of its own (U1, log 4). -/
def Obligations.FbWindowReadsFourLanes : Prop :=
  ∀ (s : State) (k : Nat) (rest : List HostEvent), k ≤ 64 →
    ∃ t, step (withAccess (.read .word (0x400 + 4 * k)) rest s) = .next t ∧
      ∃ w, t.readData = some w ∧ ∀ j, j < 4 →
        (∀ x, s.fb.read (4 * k + j) = some x → w.extractLsb' (8 * j) 8 = x) ∧
        (s.fb.read (4 * k + j) = none → w.extractLsb' (8 * j) 8 = Config.freeByte (s.draws + j))

/-! ### CRC engine -/

/-- 40_crc.md R101. -/
def Obligations.CrcStepIsEightShiftsOfTheXor : Prop :=
  ∀ (acc : Half) (b : Byte),
    crcStep acc b =
      (fun a : Half => if a.getLsbD 0 then (a >>> 1) ^^^ 0xA001#16 else a >>> 1)^[8] (acc ^^^ b.setWidth 16)

/-- 40_crc.md R102. -/
def Obligations.Crc16FoldsFromTheSeed : Prop :=
  crc16 [] = 0xFFFF#16 ∧ ∀ (s : List Byte) (b : Byte), crc16 (s ++ [b]) = crcStep (crc16 s) b

/-- 40_crc.md R103, on every list of two bytes or more. -/
def Obligations.CrcOkComparesTheTrailingBytes : Prop :=
  ∀ f : List Byte, 2 ≤ f.length →
    ∃ lo hi, f[f.length - 2]? = some lo ∧ f[f.length - 1]? = some hi ∧
      (crcOk f = true ↔ crc16 (f.take (f.length - 2)) = lo.setWidth 16 ||| (hi.setWidth 16 <<< 8))

/-- Feeding a whole frame, its CRC included, leaves 0 exactly if the CRC is valid (95_test_vectors.md 2.1). -/
def Obligations.ValidFramesLeaveResidueZero : Prop :=
  ∀ f : List Byte, 2 ≤ f.length → (crcOk f = true ↔ crc16 f = 0x0000#16)

/-- 40_crc.md R104. -/
def Obligations.CrcInitSeedsTheAccumulator : Prop :=
  ∀ (s : State) (rsv : Half) (b : Byte),
    exec .crcInit s = .next { s with acc := 0xFFFF#16 } ∧
    runCommand (fieldsWord 0#16 b 0x01#8) s = .next { s with acc := 0xFFFF#16 } ∧
    (rsv ≠ 0#16 → runCommand (fieldsWord rsv b 0x01#8) s = .next { s with errIll := true })

/-- 40_crc.md R105, its corner cases among them. -/
def Obligations.CrcByteFeedsOneByte : Prop :=
  (∀ (s : State) (rsv : Half) (b : Byte),
    exec (.crcByte b) s = .next { s with acc := crcStep s.acc b } ∧
    runCommand (fieldsWord 0#16 b 0x02#8) s = .next { s with acc := crcStep s.acc b } ∧
    (rsv ≠ 0#16 → runCommand (fieldsWord rsv b 0x02#8) s = .next { s with errIll := true })) ∧
  crcStep 0x0000#16 0x00#8 = 0x0000#16 ∧ crcStep 0xFFFF#16 0xFF#8 = 0x00FF#16 ∧
  crcStep 0xFFFF#16 0x01#8 = 0x807E#16

/-- 40_crc.md R106: after CRC_INIT and any commands but CRC_INIT, ACC is the CRC of the bytes CRC_BYTE fed; and ACC's
bytes, low first, are the CRC field of the frame. -/
def Obligations.StreamedCrcIsCrc16 : Prop :=
  (∀ (s : State) (bytes : List Byte),
    execAll (.crcInit :: bytes.map Instr.crcByte) s = .next { s with acc := crc16 bytes }) ∧
  (∀ (s t : State) (is : List Instr), Instr.crcInit ∉ is → execAll (.crcInit :: is) s = .next t →
    t.acc = crc16 (is.filterMap crcOperand)) ∧
  (∀ bytes : List Byte,
    crcOk (bytes ++ [(crc16 bytes).extractLsb' 0 8, (crc16 bytes).extractLsb' 8 8]) = true)

/-- 40_crc.md R107: the other commands neither read nor write ACC. -/
def Obligations.OnlyCrcCommandsTouchTheAccumulator : Prop :=
  ∀ (i : Instr) (s : State) (a : Half), i ≠ .crcInit → (∀ b, i ≠ .crcByte b) →
    exec i { s with acc := a } = mapNext (fun t => { t with acc := a }) (exec i s) ∧
    ∀ t, exec i s = .next t → t.acc = s.acc

/-! ### Frame codec -/

/-- 41_frame_codec.md R121 and R122. -/
def Obligations.EncodeBuildsTheRequestFrame : Prop :=
  (∀ (a fc : Byte) (st c : Half),
    (encodeRequest a fc st c).toList =
      [a, fc, st.extractLsb' 8 8, st.extractLsb' 0 8, c.extractLsb' 8 8, c.extractLsb' 0 8] ++
      [(crc16 [a, fc, st.extractLsb' 8 8, st.extractLsb' 0 8, c.extractLsb' 8 8, c.extractLsb' 0 8]).extractLsb' 0 8,
       (crc16 [a, fc, st.extractLsb' 8 8, st.extractLsb' 0 8, c.extractLsb' 8 8, c.extractLsb' 0 8]).extractLsb' 8 8]) ∧
  (∀ (s : State) (rsv : Half) (b : Byte),
    exec .encode s = .next { s with tx := encodeRequest s.reqAddr s.reqFc s.reqStart s.reqCount } ∧
    runCommand (fieldsWord 0#16 b 0x10#8) s =
      .next { s with tx := encodeRequest s.reqAddr s.reqFc s.reqStart s.reqCount } ∧
    (rsv ≠ 0#16 → runCommand (fieldsWord rsv b 0x10#8) s = .next { s with errIll := true }))

/-- 41_frame_codec.md R123. -/
def Obligations.FbClearEmptiesTheBuffer : Prop :=
  ∀ (s : State) (rsv : Half) (b : Byte),
    (s.sync ∉ [.hunt, .count, .payload] → exec .fbClear s = .next { s with fbLen := 0, sync := .idle }) ∧
    (s.sync ∈ [.hunt, .count, .payload] → exec .fbClear s = .next { s with errSeq := true }) ∧
    runCommand (fieldsWord 0#16 b 0x20#8) s = exec .fbClear s ∧
    (rsv ≠ 0#16 → runCommand (fieldsWord rsv b 0x20#8) s = .next { s with errIll := true })

/-- 41_frame_codec.md R124, in states with 10_state.md R45 item 1. -/
def Obligations.FbPushAppendsOneByte : Prop :=
  ∀ (s : State) (rsv : Half) (b : Byte), s.fbLen ≤ 260 →
    (s.sync ∉ [.hunt, .count, .payload] → s.fbLen < 260 →
      ∃ t, exec (.fbPush b) s = .next t ∧
        t = { s with fb := t.fb, fbLen := s.fbLen + 1, sync := .idle } ∧
        t.fb.read s.fbLen = some b ∧ ∀ a, a ≠ s.fbLen → t.fb.read a = s.fb.read a) ∧
    (s.sync ∉ [.hunt, .count, .payload] → s.fbLen = 260 →
      exec (.fbPush b) s = .next { s with errOvf := true }) ∧
    (s.sync ∈ [.hunt, .count, .payload] → exec (.fbPush b) s = .next { s with errSeq := true }) ∧
    runCommand (fieldsWord 0#16 b 0x21#8) s = exec (.fbPush b) s ∧
    (rsv ≠ 0#16 → runCommand (fieldsWord rsv b 0x21#8) s = .next { s with errIll := true })

/-- 41_frame_codec.md R125 to R131, by byte index: the checks in their order, then the warning, the number of values
and each value. -/
def Obligations.DecodeResponseFollowsTheRules : Prop :=
  ∀ (f : List Byte) (c : Half),
    (f.length < 5 → decodeResponse f c = .short) ∧
    (5 ≤ f.length →
      ∃ fc bc lo hi, f[1]? = some fc ∧ f[2]? = some bc ∧
        f[f.length - 2]? = some lo ∧ f[f.length - 1]? = some hi ∧
        (fc.getLsbD 7 = true → decodeResponse f c = .funcExc bc) ∧
        (fc.getLsbD 7 = false →
          crc16 (f.take (f.length - 2)) ≠ lo.setWidth 16 ||| (hi.setWidth 16 <<< 8) →
          decodeResponse f c = .crcMismatch) ∧
        (fc.getLsbD 7 = false →
          crc16 (f.take (f.length - 2)) = lo.setWidth 16 ||| (hi.setWidth 16 <<< 8) →
          ∃ vals warn, decodeResponse f c = .ok vals warn ∧
            (warn = true ↔ bc.toNat ≠ 2 * c.toNat) ∧ (128 ≤ c.toNat → warn = true) ∧
            vals.length = min bc.toNat (f.length - 5) / 2 ∧
            ∀ j, j < vals.length →
              ∃ h l, f[3 + 2 * j]? = some h ∧ f[4 + 2 * j]? = some l ∧
                vals[j]? = some ((h.setWidth 16 <<< 8) ||| l.setWidth 16)))

/-- 41_frame_codec.md R133. -/
def Obligations.DecodedValuesStayInBounds : Prop :=
  ∀ (f : List Byte) (c : Half) (vals : List Half) (warn : Bool),
    f.length ≤ 260 → decodeResponse f c = .ok vals warn →
      f.length - 5 ≤ 255 ∧ vals.length ≤ 127 ∧ ∀ j, j < vals.length → 4 + 2 * j ≤ 256 ∧ 4 + 2 * j < f.length - 2

/-- 41_frame_codec.md R134 and R135, in states with 10_state.md R45 item 2: what DECODE writes for each outcome of
R125, and that it leaves all else as it was. -/
def Obligations.DecodeRecordsTheOutcome : Prop :=
  ∀ (s : State) (rsv : Half) (b : Byte), (∀ i, i < s.fbLen → (s.fb.read i).isSome) →
    (s.sync ∉ [.hunt, .count, .payload] →
      ∃ f t, f.length = s.fbLen ∧ (∀ i, i < s.fbLen → s.fb.read i = f[i]?) ∧ exec .decode s = .next t ∧
        match decodeResponse f s.reqCount with
        | .ok vals warn =>
          t = { s with
            result := .ok, bcWarn := warn, excCode := 0#8, vcount := vals.length, values := t.values } ∧
          ∀ j, t.values.read j = if j < vals.length then vals[j]? else s.values.read j
        | .short => t = { s with result := .short, bcWarn := false, excCode := 0#8, vcount := 0 }
        | .funcExc code => t = { s with result := .funcExc, bcWarn := false, excCode := code, vcount := 0 }
        | .crcMismatch => t = { s with result := .crcMismatch, bcWarn := false, excCode := 0#8, vcount := 0 }) ∧
    (s.sync ∈ [.hunt, .count, .payload] → exec .decode s = .next { s with errSeq := true }) ∧
    runCommand (fieldsWord 0#16 b 0x22#8) s = exec .decode s ∧
    (rsv ≠ 0#16 → runCommand (fieldsWord rsv b 0x22#8) s = .next { s with errIll := true })

/-- REQ_COUNT affects nothing of a DECODE but BC_WARN (70_reset_and_hazards.md R217). -/
def Obligations.RequestCountAffectsOnlyTheWarning : Prop :=
  ∀ (s : State) (c : Half),
    mapNext (fun t => { t with reqCount := 0#16, bcWarn := false }) (exec .decode { s with reqCount := c }) =
      mapNext (fun t => { t with reqCount := 0#16, bcWarn := false }) (exec .decode s)

/-- 41_frame_codec.md R136. -/
def Obligations.EncodedRequestsDecode : Prop :=
  ∀ (a fc : Byte) (st c c' : Half),
    (fc.getLsbD 7 = false →
      ∃ vals warn, decodeResponse (encodeRequest a fc st c).toList c' = .ok vals warn ∧
        vals.length = min (st.extractLsb' 8 8).toNat 3 / 2) ∧
    (fc.getLsbD 7 = true →
      decodeResponse (encodeRequest a fc st c).toList c' = .funcExc (st.extractLsb' 8 8))

/-- 41_frame_codec.md R137, for every accepted frame and not only the spec's examples. -/
def Obligations.SingleBitFlipsAreDetected : Prop :=
  ∀ (f : List Byte) (c : Half) (vals : List Half) (warn : Bool) (i j : Nat),
    decodeResponse f c = .ok vals warn → i < f.length → j < 8 →
      (i = 1 ∧ j = 7 → ∃ code, f[2]? = some code ∧ decodeResponse (flipBit f i j) c = .funcExc code) ∧
      (¬(i = 1 ∧ j = 7) → decodeResponse (flipBit f i j) c = .crcMismatch)

/-- A DECODE of a synchronized frame gives OK or CRC_MISMATCH (41_frame_codec.md R138). -/
def Obligations.SynchronizedFramesAreNeverShortOrException : Prop :=
  ∀ s : State, R45 s → s.sync = .done →
    ∃ t, exec .decode s = .next t ∧ (t.result = .ok ∨ t.result = .crcMismatch)

/-! ### Stream synchronizer -/

/-- 42_stream_sync.md R152. -/
def Obligations.SyncStartBeginsASearch : Prop :=
  ∀ (s : State) (rsv : Half) (b : Byte),
    exec .syncStart s = .next { s with
      saddr := s.reqAddr, sync := .hunt, huntLen := 0, last := 0x00#8, noise := 0, remain := 0, fbLen := 0 } ∧
    runCommand (fieldsWord 0#16 b 0x30#8) s = exec .syncStart s ∧
    (rsv ≠ 0#16 → runCommand (fieldsWord rsv b 0x30#8) s = .next { s with errIll := true })

/-- 42_stream_sync.md R154 to R157: SYNC_BYTE in HUNT. -/
def Obligations.HuntTakesAByte : Prop :=
  ∀ (s : State) (b : Byte), s.sync = .hunt →
    (1 ≤ s.huntLen ∧ s.last = s.saddr ∧ b = 0x03#8 →
      ∃ t, exec (.syncByte b) s = .next t ∧
        t = { s with
          noise := s.huntLen + 1 - 2, huntLen := s.huntLen + 1, last := b, fb := t.fb, fbLen := 2
          sync := .count } ∧
        t.fb.read 0 = some s.saddr ∧ t.fb.read 1 = some 0x03#8 ∧
        (∀ a, a ≠ 0 → a ≠ 1 → t.fb.read a = s.fb.read a) ∧ (s.huntLen ≤ 100 → t.noise ≤ 99)) ∧
    (¬(1 ≤ s.huntLen ∧ s.last = s.saddr ∧ b = 0x03#8) → s.huntLen + 1 > 100 →
      exec (.syncByte b) s = .next { s with huntLen := s.huntLen + 1, last := b, sync := .fail }) ∧
    (¬(1 ≤ s.huntLen ∧ s.last = s.saddr ∧ b = 0x03#8) → s.huntLen + 1 ≤ 100 →
      exec (.syncByte b) s = .next { s with huntLen := s.huntLen + 1, last := b })

/-- 42_stream_sync.md R158: SYNC_BYTE in COUNT. -/
def Obligations.CountTakesTheByteCount : Prop :=
  ∀ (s : State) (b : Byte), s.sync = .count →
    ∃ t, exec (.syncByte b) s = .next t ∧
      t = { s with fb := t.fb, fbLen := 3, remain := b.toNat + 2, sync := .payload } ∧
      2 ≤ t.remain ∧ t.remain ≤ 257 ∧
      t.fb.read 2 = some b ∧ ∀ a, a ≠ 2 → t.fb.read a = s.fb.read a

/-- 42_stream_sync.md R159 and R160: SYNC_BYTE in PAYLOAD, in states of the invariant. -/
def Obligations.PayloadStoresUntilTheFrameIsWhole : Prop :=
  ∀ (s : State) (b : Byte), BlockInv s → s.sync = .payload →
    ∃ t, exec (.syncByte b) s = .next t ∧
      t = { s with
        fb := t.fb, fbLen := s.fbLen + 1, remain := s.remain - 1
        sync := if s.remain - 1 = 0 then .done else .payload } ∧
      t.fb.read s.fbLen = some b ∧ (∀ a, a ≠ s.fbLen → t.fb.read a = s.fb.read a) ∧ t.fbLen ≤ 260 ∧
      (t.sync = .done → ∃ bc, t.fb.read 0 = some s.saddr ∧ t.fb.read 1 = some 0x03#8 ∧
        t.fb.read 2 = some bc ∧ t.fbLen = 5 + bc.toNat ∧ ∀ a, a < t.fbLen → (t.fb.read a).isSome)

/-- 42_stream_sync.md R161: a byte outside a search is rejected with SEQ and dropped. -/
def Obligations.SyncByteOutsideASearchIsRejected : Prop :=
  ∀ (s : State) (b : Byte), s.sync = .idle ∨ s.sync = .done ∨ s.sync = .fail →
    exec (.syncByte b) s = .next { s with errSeq := true }

/-- 42_stream_sync.md R165. -/
def Obligations.SyncAbortFailsASearch : Prop :=
  ∀ (s : State) (rsv : Half) (b : Byte),
    (s.sync ∈ [.hunt, .count, .payload] → exec .syncAbort s = .next { s with sync := .fail }) ∧
    (s.sync ∉ [.hunt, .count, .payload] → exec .syncAbort s = .next s) ∧
    runCommand (fieldsWord 0#16 b 0x32#8) s = exec .syncAbort s ∧
    (rsv ≠ 0#16 → runCommand (fieldsWord rsv b 0x32#8) s = .next { s with errIll := true })

/-- 42_stream_sync.md R151: STATE after a command, for every command and STATE; no other transition exists. -/
def Obligations.StateMovesAsTheDiagramSays : Prop :=
  ∀ (i : Instr) (s t : State), exec i s = .next t →
    t.sync =
      match i with
      | .syncStart => .hunt
      | .syncByte b =>
        match s.sync with
        | .hunt =>
          if 1 ≤ s.huntLen ∧ s.last = s.saddr ∧ b = 0x03#8 then .count
          else if s.huntLen + 1 > 100 then .fail else .hunt
        | .count => .payload
        | .payload => if s.remain - 1 > 0 then .payload else .done
        | .idle => .idle
        | .done => .done
        | .fail => .fail
      | .syncAbort => if s.sync ∈ [.hunt, .count, .payload] then .fail else s.sync
      | .fbClear => if s.sync ∈ [.hunt, .count, .payload] then s.sync else .idle
      | .fbPush _ => if s.sync ∈ [.hunt, .count, .payload] ∨ s.fbLen = 260 then s.sync else .idle
      | .crcInit => s.sync
      | .crcByte _ => s.sync
      | .encode => s.sync
      | .decode => s.sync

/-- The marker's second byte is 0x03 whatever REQ_FC holds (42_stream_sync.md R162): REQ_FC has no part in a search. -/
def Obligations.TheMarkerIgnoresTheFunctionCode : Prop :=
  ∀ (s : State) (fc : Byte) (stream : List Byte),
    execAll (.syncStart :: stream.map Instr.syncByte) { s with reqFc := fc } =
      mapNext (fun t => { t with reqFc := fc }) (execAll (.syncStart :: stream.map Instr.syncByte) s)

/-- 42_stream_sync.md R166: noise tolerance. -/
def Obligations.NoiseBeforeAFrameIsDiscarded : Prop :=
  ∀ (s : State) (g data : List Byte) (bc c0 c1 : Byte),
    g.length ≤ 99 → data.length = bc.toNat →
    (∀ i, i ≤ g.length → ¬ markerAt s.reqAddr (g ++ s.reqAddr :: 0x03#8 :: bc :: (data ++ [c0, c1])) i) →
      ∃ t, execAll (.syncStart ::
          (g ++ s.reqAddr :: 0x03#8 :: bc :: (data ++ [c0, c1])).map Instr.syncByte) s = .next t ∧
        t.sync = .done ∧ t.fbLen = 5 + bc.toNat ∧ t.noise = g.length ∧
        t.fb.readSpan 0 t.fbLen = some (s.reqAddr :: 0x03#8 :: bc :: (data ++ [c0, c1]))

/-- 42_stream_sync.md R167: a search fails at the 101st byte without a marker; it takes at most 101 bytes in HUNT, one in
COUNT and 257 in PAYLOAD; and every search that is fed ends within 359 bytes. -/
def Obligations.EverySearchThatIsFedEnds : Prop :=
  (∀ (s : State) (stream : List Byte), stream.length = 101 →
    (∀ i, i ≤ 100 → ¬ markerAt s.reqAddr stream i) →
      ∃ t, execAll (.syncStart :: stream.map Instr.syncByte) s = .next t ∧ t.sync = .fail ∧ t.huntLen = 101) ∧
  (∀ (s : State) (stream : List Byte), stream.length = 101 →
    ∃ n t, n ≤ 101 ∧ execAll (.syncStart :: (stream.take n).map Instr.syncByte) s = .next t ∧ t.sync ≠ .hunt) ∧
  (∀ (s : State) (b : Byte), s.sync = .count →
    ∃ t, exec (.syncByte b) s = .next t ∧ t.sync = .payload ∧ t.remain ≤ 257) ∧
  (∀ (s : State) (b : Byte), BlockInv s → s.sync = .payload →
    ∃ t, exec (.syncByte b) s = .next t ∧ t.remain + 1 = s.remain ∧
      (t.sync = .payload ∧ 1 ≤ t.remain ∨ t.sync = .done ∧ t.remain = 0)) ∧
  (∀ (s : State) (stream : List Byte), stream.length = 359 →
    ∃ n t, n ≤ 359 ∧ execAll (.syncStart :: (stream.take n).map Instr.syncByte) s = .next t ∧
      (t.sync = .done ∨ t.sync = .fail))

/-! ### Errors and flags -/

/-- 60_exceptions.md R182: the checks of a CMD write in their order, one ERR bit for the first that fails, and
otherwise the command's own effect, which sets none. -/
def Obligations.CommandChecksAreMadeInOrder : Prop :=
  ∀ (rsv : Half) (b op : Byte) (s : State),
    (rsv ≠ 0#16 → runCommand (fieldsWord rsv b op) s = .next { s with errIll := true }) ∧
    (op ∉ [0x01#8, 0x02#8, 0x10#8, 0x20#8, 0x21#8, 0x22#8, 0x30#8, 0x31#8, 0x32#8] →
      runCommand (fieldsWord 0#16 b op) s = .next { s with errIll := true }) ∧
    (op ∈ [0x20#8, 0x21#8, 0x22#8] → s.sync ∈ [.hunt, .count, .payload] →
      runCommand (fieldsWord 0#16 b op) s = .next { s with errSeq := true }) ∧
    (op = 0x31#8 → s.sync ∉ [.hunt, .count, .payload] →
      runCommand (fieldsWord 0#16 b op) s = .next { s with errSeq := true }) ∧
    (op = 0x21#8 → s.sync ∉ [.hunt, .count, .payload] → s.fbLen = 260 →
      runCommand (fieldsWord 0#16 b op) s = .next { s with errOvf := true }) ∧
    (op ∈ [0x01#8, 0x02#8, 0x10#8, 0x20#8, 0x21#8, 0x22#8, 0x30#8, 0x31#8, 0x32#8] →
      ¬(op ∈ [0x20#8, 0x21#8, 0x22#8] ∧ s.sync ∈ [.hunt, .count, .payload]) →
      ¬(op = 0x31#8 ∧ s.sync ∉ [.hunt, .count, .payload]) →
      ¬(op = 0x21#8 ∧ s.fbLen = 260) →
      ∃ i, decode (fieldsWord 0#16 b op) = .ok i ∧ runCommand (fieldsWord 0#16 b op) s = exec i s ∧
        ∀ t, exec i s = .next t → t.errIll = s.errIll ∧ t.errSeq = s.errSeq ∧ t.errOvf = s.errOvf)

/-- 60_exceptions.md R184 and R185: which commands raise SEQ and OVF, and in which states; a rejected command changes
nothing else. -/
def Obligations.SeqAndOvfHaveExactlyTheirCauses : Prop :=
  ∀ (i : Instr) (s t : State), exec i s = .next t →
    let seq : Prop :=
      ((i = .fbClear ∨ (∃ b, i = .fbPush b) ∨ i = .decode) ∧ s.sync ∈ [.hunt, .count, .payload]) ∨
      ((∃ b, i = .syncByte b) ∧ s.sync ∈ [.idle, .done, .fail])
    let ovf : Prop := (∃ b, i = .fbPush b) ∧ s.sync ∉ [.hunt, .count, .payload] ∧ s.fbLen = 260
    (seq → t = { s with errSeq := true }) ∧ (ovf → t = { s with errOvf := true }) ∧
    (¬seq → t.errSeq = s.errSeq) ∧ (¬ovf → t.errOvf = s.errOvf) ∧ t.errIll = s.errIll

/-- 10_state.md R44: who writes the flags, over the host's accesses (reset is no access); that a DECODE replaces its
three whatever they were; and that no command reads a flag but STATE. -/
def Obligations.FlagsHaveOnlyTheirWriters : Prop :=
  (∀ (s t : State) (a : Access) (rest : List HostEvent), step (withAccess a rest s) = .next t →
    (∀ bit : Fin 3,
      let flag : State → Bool := fun u => [u.errIll, u.errSeq, u.errOvf][bit]
      (flag s = true → flag t = false → ∃ v, a = .write .word 0x004 v ∧ v.getLsbD bit = true) ∧
      (flag s = false → flag t = true → ∃ v, a = .write .word 0x000 v ∧ t = { s with
        inputs := rest, readData := none
        errIll := t.errIll, errSeq := t.errSeq, errOvf := t.errOvf })) ∧
    (¬(∃ v, a = .write .word 0x000 v ∧ decode v = .ok .decode) →
      t.result = s.result ∧ t.bcWarn = s.bcWarn ∧ t.excCode = s.excCode) ∧
    (¬(∃ v i, a = .write .word 0x000 v ∧ decode v = .ok i ∧
        (i = .syncStart ∨ (∃ b, i = .syncByte b) ∨ i = .syncAbort ∨ i = .fbClear ∨ ∃ b, i = .fbPush b)) →
      t.sync = s.sync)) ∧
  (∀ (s : State) (r : DecResult) (w : Bool) (e : Byte), s.sync ∉ [.hunt, .count, .payload] →
    exec .decode { s with result := r, bcWarn := w, excCode := e } = exec .decode s) ∧
  (∀ (i : Instr) (s : State) (ill seq ovf : Bool) (r : DecResult) (w : Bool) (e : Byte),
    let noFlags : State → State := fun t =>
      { t with errIll := false, errSeq := false, errOvf := false, result := .noDecode, bcWarn := false, excCode := 0#8 }
    mapNext noFlags (exec i { s with
        errIll := ill, errSeq := seq, errOvf := ovf, result := r, bcWarn := w, excCode := e }) =
      mapNext noFlags (exec i s))

/-- Where a command stops: three places, none of which a state of the invariant reaches (log 9). -/
def Obligations.CommandsFaultExactlyHere : Prop :=
  ∀ (i : Instr) (s : State),
    (∀ r, exec i s ≠ .refused r) ∧
    (∀ r, exec i s = .fault r ↔
      (r = .fbIndex ∧
        ((∃ b, i = .fbPush b) ∧ s.sync ∉ [.hunt, .count, .payload] ∧ 260 < s.fbLen ∨
          (∃ b, i = .syncByte b) ∧ s.sync = .payload ∧ s.remain ≠ 0 ∧ 260 ≤ s.fbLen)) ∨
      (r = .fbUnwritten ∧ i = .decode ∧ s.sync ∉ [.hunt, .count, .payload] ∧
        ∃ j, j < s.fbLen ∧ s.fb.read j = none) ∨
      (r = .remainZero ∧ (∃ b, i = .syncByte b) ∧ s.sync = .payload ∧ s.remain = 0))

/-! ### Frames over all commands -/

/-- What no command, or only the named one, writes among the registers; the host's script and the model's own fields
are no command's. -/
def Obligations.CommandsLeaveOtherRegistersAlone : Prop :=
  ∀ (i : Instr) (s t : State), exec i s = .next t →
    (t.reqAddr = s.reqAddr ∧ t.reqFc = s.reqFc ∧ t.reqStart = s.reqStart ∧ t.reqCount = s.reqCount) ∧
    (t.inputs = s.inputs ∧ t.readData = s.readData ∧ t.draws = s.draws) ∧
    (i ≠ .encode → t.tx = s.tx) ∧
    (i ≠ .decode →
      t.result = s.result ∧ t.bcWarn = s.bcWarn ∧ t.excCode = s.excCode ∧ t.vcount = s.vcount) ∧
    (i ≠ .syncStart → t.saddr = s.saddr) ∧
    (i ≠ .syncStart → (∀ b, i ≠ .syncByte b) →
      t.huntLen = s.huntLen ∧ t.last = s.last ∧ t.noise = s.noise ∧ t.remain = s.remain) ∧
    (i ≠ .syncStart → (∀ b, i ≠ .syncByte b) → i ≠ .fbClear → (∀ b, i ≠ .fbPush b) → t.fbLen = s.fbLen)

/-- Every byte of FB but those a command stores to reads as before: FB_PUSH stores to FB[FB_LEN], SYNC_BYTE to
`syncStores`, no other command stores (10_state.md R41). -/
def Obligations.FbKeepsEveryOtherByte : Prop :=
  ∀ (i : Instr) (s t : State) (a : Nat), exec i s = .next t →
    (∀ b, i = .fbPush b → a ≠ s.fbLen) → (∀ b, i = .syncByte b → a ∉ syncStores b s) →
      t.fb.read a = s.fb.read a

/-- Every VALUES entry but those below the new VCOUNT of a successful DECODE reads as before (10_state.md R42). -/
def Obligations.ValuesKeepsEveryOtherEntry : Prop :=
  ∀ (i : Instr) (s t : State) (j : Nat), exec i s = .next t →
    i ≠ .decode ∨ t.result ≠ .ok ∨ t.vcount ≤ j → t.values.read j = s.values.read j

/-! ### Invariants -/

/-- The invariant holds after reset, whatever the host will do. -/
def Obligations.ResetMeetsTheInvariant : Prop :=
  ∀ script : List HostEvent, BlockInv { State.reset with inputs := script }

/-- Every step keeps the invariant, from every state that meets it. -/
def Obligations.StepKeepsTheInvariant : Prop :=
  ∀ s t : State, BlockInv s → step s = .next t → BlockInv t

/-- From a state of the invariant, every event the block does not refuse has a next state, which meets the invariant
again: no step faults. -/
def Obligations.InvariantStatesStepOn : Prop :=
  ∀ (s : State) (e : HostEvent) (rest : List HostEvent), BlockInv s → e.wf = true →
    ∃ t, step { s with inputs := e :: rest } = .next t ∧ BlockInv t

/-- 10_state.md R45 at every state the block reaches from reset, for every script of the host. -/
def Obligations.ReachableStatesMeetR45 : Prop :=
  ∀ (script : List HostEvent) (k : Nat) (t : State),
    Host.Core.run Sys2Proof.core k { State.reset with inputs := script } = .next t → R45 t

/-- 10_state.md R47: a step of one instance leaves every other as it was, and depends on none (log 12); and there is at
least one (00_scope.md R10). -/
def Obligations.ChannelsShareNoState : Prop :=
  ∀ (p p' q : Platform) (c : Nat), Platform.stepAt p c = .next q →
    (q.nChannels = p.nChannels ∧ 1 ≤ p.nChannels) ∧
    (∃ s t, p.channels[c]? = some s ∧ step s = .next t ∧ q.channels[c]? = some t) ∧
    (∀ d, d ≠ c → q.channels[d]? = p.channels[d]?) ∧
    (p'.channels[c]? = p.channels[c]? →
      ∃ q', Platform.stepAt p' c = .next q' ∧ q'.channels[c]? = q.channels[c]?)
end

