-- ==== Sys2Proof/Laws/Channels.lean ====
section
/-! SUPPORT. The channels of a platform, and what a step of one of them can answer. -/

namespace Sys2Proof.Machine

@[simp] theorem Platform.channels_setChannel (p : Platform) (c : Nat) (t : State) :
    (p.setChannel c t).channels = p.channels.set c t := by
  cases c <;> rfl

/-- N_CHANNELS is at least 1 (spec/00_scope.md R10). -/
theorem Platform.one_le_nChannels (p : Platform) : 1 ≤ p.nChannels := by
  simp [Platform.nChannels, Platform.channels]

@[simp] theorem Platform.nChannels_setChannel (p : Platform) (c : Nat) (t : State) :
    (p.setChannel c t).nChannels = p.nChannels := by
  simp [Platform.nChannels]

/-- A step of a platform that has a next state is a step of one of its channels. -/
theorem Platform.stepAt_eq_next {p q : Platform} {c : Nat} (h : p.stepAt c = .next q) :
    ∃ s t, p.channels[c]? = some s ∧ step s = .next t ∧ q = p.setChannel c t := by
  unfold Platform.stepAt at h
  split at h
  · cases h
  · rename_i s hs
    split at h
    · rename_i t ht
      cases h
      exact ⟨s, t, hs, ht, rfl⟩
    · cases h
    · cases h

end Sys2Proof.Machine
end

