-- ==== Sys2Proof/Laws/Decode.lean ====
section
/-! SUPPORT. The fields of a command word, and what the decoder reads from a word given by its fields. -/

namespace Sys2Proof.Machine

@[simp] theorem opOf_fieldsWord (r : Half) (b o : Byte) : opOf (fieldsWord r b o) = o := by
  apply BitVec.eq_of_getLsbD_eq
  intro i hi
  have h1 : i < 16 := by omega
  have h2 : i < 32 := by omega
  simp [opOf, fieldsWord, hi, h1, h2]

@[simp] theorem byteOf_fieldsWord (r : Half) (b o : Byte) : byteOf (fieldsWord r b o) = b := by
  apply BitVec.eq_of_getLsbD_eq
  intro i hi
  have h1 : ¬(8 + i < 8) := by omega
  have h2 : 8 + i < 16 := by omega
  have h3 : 8 + i < 32 := by omega
  simp [byteOf, fieldsWord, hi, h1, h2, h3]

@[simp] theorem rsvOf_fieldsWord (r : Half) (b o : Byte) : rsvOf (fieldsWord r b o) = r := by
  apply BitVec.eq_of_getLsbD_eq
  intro i hi
  have h1 : ¬(16 + i < 8) := by omega
  have h2 : o.getLsbD (16 + i) = false := BitVec.getLsbD_of_ge _ _ (by omega)
  have h3 : b.getLsbD (16 + i - 8) = false := BitVec.getLsbD_of_ge _ _ (by omega)
  have h4 : 16 + i < 32 := by omega
  simp [rsvOf, fieldsWord, hi, h1, h2, h3, h4]

/-- A word is its three fields (spec/30_encoding.md R80). -/
theorem fieldsWord_fields (v : Word) : fieldsWord (rsvOf v) (byteOf v) (opOf v) = v := by
  apply BitVec.eq_of_getLsbD_eq
  intro i hi
  by_cases h1 : i < 8
  · have h2 : i < 16 := by omega
    simp [rsvOf, byteOf, opOf, fieldsWord, hi, h1, h2]
  · by_cases h2 : i < 16
    · have h3 : i - 8 < 8 := by omega
      have h4 : 8 + (i - 8) = i := by omega
      simp [rsvOf, byteOf, opOf, fieldsWord, hi, h1, h2, h3, h4]
    · have h3 : ¬(i - 8 < 8) := by omega
      have h4 : 16 + (i - 16) = i := by omega
      have h5 : i - 16 < 16 := by omega
      simp [rsvOf, byteOf, opOf, fieldsWord, hi, h1, h2, h3, h4, h5]

/-- The encoder's words have RSV = 0. -/
theorem commandWord_eq (op b : Byte) : commandWord op b = fieldsWord 0#16 b op := by
  simp [commandWord, fieldsWord]

@[simp] theorem opOf_commandWord (op b : Byte) : opOf (commandWord op b) = op := by
  rw [commandWord_eq, opOf_fieldsWord]

@[simp] theorem byteOf_commandWord (op b : Byte) : byteOf (commandWord op b) = b := by
  rw [commandWord_eq, byteOf_fieldsWord]

@[simp] theorem rsvOf_commandWord (op b : Byte) : rsvOf (commandWord op b) = 0#16 := by
  rw [commandWord_eq, rsvOf_fieldsWord]

/-- OP of a command (spec/30_encoding.md R82). -/
def opcode : Instr → Byte
  | .crcInit => 0x01#8
  | .crcByte _ => 0x02#8
  | .encode => 0x10#8
  | .fbClear => 0x20#8
  | .fbPush _ => 0x21#8
  | .decode => 0x22#8
  | .syncStart => 0x30#8
  | .syncByte _ => 0x31#8
  | .syncAbort => 0x32#8

/-- B of a command that has it. -/
def byteOperand : Instr → Option Byte
  | .crcInit => none
  | .crcByte b => some b
  | .encode => none
  | .fbClear => none
  | .fbPush b => some b
  | .decode => none
  | .syncStart => none
  | .syncByte b => some b
  | .syncAbort => none

/-- All the decoder can say yes to: RSV is 0, OP is the command's, and B is its operand where it has one. -/
theorem decode_eq_ok_iff (v : Word) (i : Instr) :
    decode v = .ok i ↔ rsvOf v = 0#16 ∧ opOf v = opcode i ∧ ∀ b, byteOperand i = some b → byteOf v = b := by
  unfold decode
  by_cases hr : rsvOf v = 0#16
  · rw [if_pos hr]
    constructor
    · intro h
      split at h <;> cases h
      all_goals simp_all [opcode, byteOperand]
    · rintro ⟨-, ho, hb⟩
      cases i <;> simp only [opcode] at ho <;> simp [ho] <;> exact hb _ rfl
  · simp [hr]

/-- The decoder says no exactly where RSV is not 0 or OP is no command's. -/
theorem decode_eq_error_iff (v : Word) :
    (∃ r, decode v = .error r) ↔ rsvOf v ≠ 0#16 ∨ ∀ i, opOf v ≠ opcode i := by
  constructor
  · rintro ⟨r, h⟩
    by_contra hc
    push Not at hc
    obtain ⟨hr, i, hi⟩ := hc
    have hk : ∃ j, decode v = .ok j := by
      refine ⟨match i with
        | .crcByte _ => .crcByte (byteOf v)
        | .fbPush _ => .fbPush (byteOf v)
        | .syncByte _ => .syncByte (byteOf v)
        | j => j, ?_⟩
      rw [decode_eq_ok_iff]
      cases i <;> simp_all [opcode, byteOperand]
    obtain ⟨j, hj⟩ := hk
    rw [h] at hj
    cases hj
  · intro h
    cases hd : decode v with
    | error r => exact ⟨r, rfl⟩
    | ok i =>
      obtain ⟨hr, ho, -⟩ := (decode_eq_ok_iff v i).1 hd
      rcases h with h | h
      · exact absurd hr h
      · exact absurd ho (h i)

end Sys2Proof.Machine
end

