-- ==== Sys2Proof/Laws/State.lean ====
section
/-! SUPPORT. What the named updates of State leave in each field: one lemma a field, so that no proof unfolds them. -/

namespace Sys2Proof.Machine

/-! ### raiseCmdError (spec/60_exceptions.md R181) -/

@[simp] theorem raiseCmdError_ill (s : State) : raiseCmdError .ill s = { s with errIll := true } := rfl
@[simp] theorem raiseCmdError_seq (s : State) : raiseCmdError .seq s = { s with errSeq := true } := rfl
@[simp] theorem raiseCmdError_ovf (s : State) : raiseCmdError .ovf s = { s with errOvf := true } := rfl
@[simp] theorem raiseCmdError_acc (f : CmdError) (s : State) : (raiseCmdError f s).acc = s.acc := by cases f <;> rfl
@[simp] theorem raiseCmdError_reqAddr (f : CmdError) (s : State) : (raiseCmdError f s).reqAddr = s.reqAddr := by cases f <;> rfl
@[simp] theorem raiseCmdError_reqFc (f : CmdError) (s : State) : (raiseCmdError f s).reqFc = s.reqFc := by cases f <;> rfl
@[simp] theorem raiseCmdError_reqStart (f : CmdError) (s : State) : (raiseCmdError f s).reqStart = s.reqStart := by cases f <;> rfl
@[simp] theorem raiseCmdError_reqCount (f : CmdError) (s : State) : (raiseCmdError f s).reqCount = s.reqCount := by cases f <;> rfl
@[simp] theorem raiseCmdError_tx (f : CmdError) (s : State) : (raiseCmdError f s).tx = s.tx := by cases f <;> rfl
@[simp] theorem raiseCmdError_fbLen (f : CmdError) (s : State) : (raiseCmdError f s).fbLen = s.fbLen := by cases f <;> rfl
@[simp] theorem raiseCmdError_fb (f : CmdError) (s : State) : (raiseCmdError f s).fb = s.fb := by cases f <;> rfl
@[simp] theorem raiseCmdError_result (f : CmdError) (s : State) : (raiseCmdError f s).result = s.result := by cases f <;> rfl
@[simp] theorem raiseCmdError_bcWarn (f : CmdError) (s : State) : (raiseCmdError f s).bcWarn = s.bcWarn := by cases f <;> rfl
@[simp] theorem raiseCmdError_excCode (f : CmdError) (s : State) : (raiseCmdError f s).excCode = s.excCode := by cases f <;> rfl
@[simp] theorem raiseCmdError_vcount (f : CmdError) (s : State) : (raiseCmdError f s).vcount = s.vcount := by cases f <;> rfl
@[simp] theorem raiseCmdError_values (f : CmdError) (s : State) : (raiseCmdError f s).values = s.values := by cases f <;> rfl
@[simp] theorem raiseCmdError_sync (f : CmdError) (s : State) : (raiseCmdError f s).sync = s.sync := by cases f <;> rfl
@[simp] theorem raiseCmdError_saddr (f : CmdError) (s : State) : (raiseCmdError f s).saddr = s.saddr := by cases f <;> rfl
@[simp] theorem raiseCmdError_huntLen (f : CmdError) (s : State) : (raiseCmdError f s).huntLen = s.huntLen := by cases f <;> rfl
@[simp] theorem raiseCmdError_last (f : CmdError) (s : State) : (raiseCmdError f s).last = s.last := by cases f <;> rfl
@[simp] theorem raiseCmdError_noise (f : CmdError) (s : State) : (raiseCmdError f s).noise = s.noise := by cases f <;> rfl
@[simp] theorem raiseCmdError_remain (f : CmdError) (s : State) : (raiseCmdError f s).remain = s.remain := by cases f <;> rfl
@[simp] theorem raiseCmdError_inputs (f : CmdError) (s : State) : (raiseCmdError f s).inputs = s.inputs := by cases f <;> rfl
@[simp] theorem raiseCmdError_readData (f : CmdError) (s : State) : (raiseCmdError f s).readData = s.readData := by cases f <;> rfl
@[simp] theorem raiseCmdError_draws (f : CmdError) (s : State) : (raiseCmdError f s).draws = s.draws := by cases f <;> rfl

/-! ### clearErr (spec/20_memory.md R70) -/

@[simp] theorem clearErr_errIll (v : Word) (s : State) : (clearErr v s).errIll = (s.errIll && !v.getLsbD 0) := rfl
@[simp] theorem clearErr_errSeq (v : Word) (s : State) : (clearErr v s).errSeq = (s.errSeq && !v.getLsbD 1) := rfl
@[simp] theorem clearErr_errOvf (v : Word) (s : State) : (clearErr v s).errOvf = (s.errOvf && !v.getLsbD 2) := rfl
@[simp] theorem clearErr_acc (v : Word) (s : State) : (clearErr v s).acc = s.acc := rfl
@[simp] theorem clearErr_reqAddr (v : Word) (s : State) : (clearErr v s).reqAddr = s.reqAddr := rfl
@[simp] theorem clearErr_reqFc (v : Word) (s : State) : (clearErr v s).reqFc = s.reqFc := rfl
@[simp] theorem clearErr_reqStart (v : Word) (s : State) : (clearErr v s).reqStart = s.reqStart := rfl
@[simp] theorem clearErr_reqCount (v : Word) (s : State) : (clearErr v s).reqCount = s.reqCount := rfl
@[simp] theorem clearErr_tx (v : Word) (s : State) : (clearErr v s).tx = s.tx := rfl
@[simp] theorem clearErr_fbLen (v : Word) (s : State) : (clearErr v s).fbLen = s.fbLen := rfl
@[simp] theorem clearErr_fb (v : Word) (s : State) : (clearErr v s).fb = s.fb := rfl
@[simp] theorem clearErr_result (v : Word) (s : State) : (clearErr v s).result = s.result := rfl
@[simp] theorem clearErr_bcWarn (v : Word) (s : State) : (clearErr v s).bcWarn = s.bcWarn := rfl
@[simp] theorem clearErr_excCode (v : Word) (s : State) : (clearErr v s).excCode = s.excCode := rfl
@[simp] theorem clearErr_vcount (v : Word) (s : State) : (clearErr v s).vcount = s.vcount := rfl
@[simp] theorem clearErr_values (v : Word) (s : State) : (clearErr v s).values = s.values := rfl
@[simp] theorem clearErr_sync (v : Word) (s : State) : (clearErr v s).sync = s.sync := rfl
@[simp] theorem clearErr_saddr (v : Word) (s : State) : (clearErr v s).saddr = s.saddr := rfl
@[simp] theorem clearErr_huntLen (v : Word) (s : State) : (clearErr v s).huntLen = s.huntLen := rfl
@[simp] theorem clearErr_last (v : Word) (s : State) : (clearErr v s).last = s.last := rfl
@[simp] theorem clearErr_noise (v : Word) (s : State) : (clearErr v s).noise = s.noise := rfl
@[simp] theorem clearErr_remain (v : Word) (s : State) : (clearErr v s).remain = s.remain := rfl
@[simp] theorem clearErr_inputs (v : Word) (s : State) : (clearErr v s).inputs = s.inputs := rfl
@[simp] theorem clearErr_readData (v : Word) (s : State) : (clearErr v s).readData = s.readData := rfl
@[simp] theorem clearErr_draws (v : Word) (s : State) : (clearErr v s).draws = s.draws := rfl

/-! ### takeEvent -/

@[simp] theorem takeEvent_errIll (rest : List HostEvent) (s : State) : (takeEvent rest s).errIll = s.errIll := rfl
@[simp] theorem takeEvent_errSeq (rest : List HostEvent) (s : State) : (takeEvent rest s).errSeq = s.errSeq := rfl
@[simp] theorem takeEvent_errOvf (rest : List HostEvent) (s : State) : (takeEvent rest s).errOvf = s.errOvf := rfl
@[simp] theorem takeEvent_acc (rest : List HostEvent) (s : State) : (takeEvent rest s).acc = s.acc := rfl
@[simp] theorem takeEvent_reqAddr (rest : List HostEvent) (s : State) : (takeEvent rest s).reqAddr = s.reqAddr := rfl
@[simp] theorem takeEvent_reqFc (rest : List HostEvent) (s : State) : (takeEvent rest s).reqFc = s.reqFc := rfl
@[simp] theorem takeEvent_reqStart (rest : List HostEvent) (s : State) : (takeEvent rest s).reqStart = s.reqStart := rfl
@[simp] theorem takeEvent_reqCount (rest : List HostEvent) (s : State) : (takeEvent rest s).reqCount = s.reqCount := rfl
@[simp] theorem takeEvent_tx (rest : List HostEvent) (s : State) : (takeEvent rest s).tx = s.tx := rfl
@[simp] theorem takeEvent_fbLen (rest : List HostEvent) (s : State) : (takeEvent rest s).fbLen = s.fbLen := rfl
@[simp] theorem takeEvent_fb (rest : List HostEvent) (s : State) : (takeEvent rest s).fb = s.fb := rfl
@[simp] theorem takeEvent_result (rest : List HostEvent) (s : State) : (takeEvent rest s).result = s.result := rfl
@[simp] theorem takeEvent_bcWarn (rest : List HostEvent) (s : State) : (takeEvent rest s).bcWarn = s.bcWarn := rfl
@[simp] theorem takeEvent_excCode (rest : List HostEvent) (s : State) : (takeEvent rest s).excCode = s.excCode := rfl
@[simp] theorem takeEvent_vcount (rest : List HostEvent) (s : State) : (takeEvent rest s).vcount = s.vcount := rfl
@[simp] theorem takeEvent_values (rest : List HostEvent) (s : State) : (takeEvent rest s).values = s.values := rfl
@[simp] theorem takeEvent_sync (rest : List HostEvent) (s : State) : (takeEvent rest s).sync = s.sync := rfl
@[simp] theorem takeEvent_saddr (rest : List HostEvent) (s : State) : (takeEvent rest s).saddr = s.saddr := rfl
@[simp] theorem takeEvent_huntLen (rest : List HostEvent) (s : State) : (takeEvent rest s).huntLen = s.huntLen := rfl
@[simp] theorem takeEvent_last (rest : List HostEvent) (s : State) : (takeEvent rest s).last = s.last := rfl
@[simp] theorem takeEvent_noise (rest : List HostEvent) (s : State) : (takeEvent rest s).noise = s.noise := rfl
@[simp] theorem takeEvent_remain (rest : List HostEvent) (s : State) : (takeEvent rest s).remain = s.remain := rfl
@[simp] theorem takeEvent_inputs (rest : List HostEvent) (s : State) : (takeEvent rest s).inputs = rest := rfl
@[simp] theorem takeEvent_readData (rest : List HostEvent) (s : State) : (takeEvent rest s).readData = none := rfl
@[simp] theorem takeEvent_draws (rest : List HostEvent) (s : State) : (takeEvent rest s).draws = s.draws := rfl

/-! ### memRead (spec/20_memory.md R66) -/

@[simp] theorem memRead_errIll (off : Nat) (s : State) : (memRead off s).errIll = s.errIll := rfl
@[simp] theorem memRead_errSeq (off : Nat) (s : State) : (memRead off s).errSeq = s.errSeq := rfl
@[simp] theorem memRead_errOvf (off : Nat) (s : State) : (memRead off s).errOvf = s.errOvf := rfl
@[simp] theorem memRead_acc (off : Nat) (s : State) : (memRead off s).acc = s.acc := rfl
@[simp] theorem memRead_reqAddr (off : Nat) (s : State) : (memRead off s).reqAddr = s.reqAddr := rfl
@[simp] theorem memRead_reqFc (off : Nat) (s : State) : (memRead off s).reqFc = s.reqFc := rfl
@[simp] theorem memRead_reqStart (off : Nat) (s : State) : (memRead off s).reqStart = s.reqStart := rfl
@[simp] theorem memRead_reqCount (off : Nat) (s : State) : (memRead off s).reqCount = s.reqCount := rfl
@[simp] theorem memRead_tx (off : Nat) (s : State) : (memRead off s).tx = s.tx := rfl
@[simp] theorem memRead_fbLen (off : Nat) (s : State) : (memRead off s).fbLen = s.fbLen := rfl
@[simp] theorem memRead_fb (off : Nat) (s : State) : (memRead off s).fb = s.fb := rfl
@[simp] theorem memRead_result (off : Nat) (s : State) : (memRead off s).result = s.result := rfl
@[simp] theorem memRead_bcWarn (off : Nat) (s : State) : (memRead off s).bcWarn = s.bcWarn := rfl
@[simp] theorem memRead_excCode (off : Nat) (s : State) : (memRead off s).excCode = s.excCode := rfl
@[simp] theorem memRead_vcount (off : Nat) (s : State) : (memRead off s).vcount = s.vcount := rfl
@[simp] theorem memRead_values (off : Nat) (s : State) : (memRead off s).values = s.values := rfl
@[simp] theorem memRead_sync (off : Nat) (s : State) : (memRead off s).sync = s.sync := rfl
@[simp] theorem memRead_saddr (off : Nat) (s : State) : (memRead off s).saddr = s.saddr := rfl
@[simp] theorem memRead_huntLen (off : Nat) (s : State) : (memRead off s).huntLen = s.huntLen := rfl
@[simp] theorem memRead_last (off : Nat) (s : State) : (memRead off s).last = s.last := rfl
@[simp] theorem memRead_noise (off : Nat) (s : State) : (memRead off s).noise = s.noise := rfl
@[simp] theorem memRead_remain (off : Nat) (s : State) : (memRead off s).remain = s.remain := rfl
@[simp] theorem memRead_inputs (off : Nat) (s : State) : (memRead off s).inputs = s.inputs := rfl
@[simp] theorem memRead_readData (off : Nat) (s : State) : (memRead off s).readData = some (readReg (regAt off) s) := rfl
@[simp] theorem memRead_draws (off : Nat) (s : State) : (memRead off s).draws = s.draws + drawsOf (regAt off) := rfl

/-! ### recordDecode (spec/41_frame_codec.md R134) -/

@[simp] theorem recordDecode_errIll (r : FrameResult) (s : State) : (recordDecode r s).errIll = s.errIll := by cases r <;> rfl
@[simp] theorem recordDecode_errSeq (r : FrameResult) (s : State) : (recordDecode r s).errSeq = s.errSeq := by cases r <;> rfl
@[simp] theorem recordDecode_errOvf (r : FrameResult) (s : State) : (recordDecode r s).errOvf = s.errOvf := by cases r <;> rfl
@[simp] theorem recordDecode_acc (r : FrameResult) (s : State) : (recordDecode r s).acc = s.acc := by cases r <;> rfl
@[simp] theorem recordDecode_reqAddr (r : FrameResult) (s : State) : (recordDecode r s).reqAddr = s.reqAddr := by cases r <;> rfl
@[simp] theorem recordDecode_reqFc (r : FrameResult) (s : State) : (recordDecode r s).reqFc = s.reqFc := by cases r <;> rfl
@[simp] theorem recordDecode_reqStart (r : FrameResult) (s : State) : (recordDecode r s).reqStart = s.reqStart := by cases r <;> rfl
@[simp] theorem recordDecode_reqCount (r : FrameResult) (s : State) : (recordDecode r s).reqCount = s.reqCount := by cases r <;> rfl
@[simp] theorem recordDecode_tx (r : FrameResult) (s : State) : (recordDecode r s).tx = s.tx := by cases r <;> rfl
@[simp] theorem recordDecode_fbLen (r : FrameResult) (s : State) : (recordDecode r s).fbLen = s.fbLen := by cases r <;> rfl
@[simp] theorem recordDecode_fb (r : FrameResult) (s : State) : (recordDecode r s).fb = s.fb := by cases r <;> rfl
@[simp] theorem recordDecode_sync (r : FrameResult) (s : State) : (recordDecode r s).sync = s.sync := by cases r <;> rfl
@[simp] theorem recordDecode_saddr (r : FrameResult) (s : State) : (recordDecode r s).saddr = s.saddr := by cases r <;> rfl
@[simp] theorem recordDecode_huntLen (r : FrameResult) (s : State) : (recordDecode r s).huntLen = s.huntLen := by cases r <;> rfl
@[simp] theorem recordDecode_last (r : FrameResult) (s : State) : (recordDecode r s).last = s.last := by cases r <;> rfl
@[simp] theorem recordDecode_noise (r : FrameResult) (s : State) : (recordDecode r s).noise = s.noise := by cases r <;> rfl
@[simp] theorem recordDecode_remain (r : FrameResult) (s : State) : (recordDecode r s).remain = s.remain := by cases r <;> rfl
@[simp] theorem recordDecode_inputs (r : FrameResult) (s : State) : (recordDecode r s).inputs = s.inputs := by cases r <;> rfl
@[simp] theorem recordDecode_readData (r : FrameResult) (s : State) : (recordDecode r s).readData = s.readData := by cases r <;> rfl
@[simp] theorem recordDecode_draws (r : FrameResult) (s : State) : (recordDecode r s).draws = s.draws := by cases r <;> rfl

/-! ### applyReset (spec/70_reset_and_hazards.md R210) -/

@[simp] theorem applyReset_errIll (s : State) : (applyReset s).errIll = State.reset.errIll := rfl
@[simp] theorem applyReset_errSeq (s : State) : (applyReset s).errSeq = State.reset.errSeq := rfl
@[simp] theorem applyReset_errOvf (s : State) : (applyReset s).errOvf = State.reset.errOvf := rfl
@[simp] theorem applyReset_acc (s : State) : (applyReset s).acc = State.reset.acc := rfl
@[simp] theorem applyReset_reqAddr (s : State) : (applyReset s).reqAddr = State.reset.reqAddr := rfl
@[simp] theorem applyReset_reqFc (s : State) : (applyReset s).reqFc = State.reset.reqFc := rfl
@[simp] theorem applyReset_reqStart (s : State) : (applyReset s).reqStart = State.reset.reqStart := rfl
@[simp] theorem applyReset_reqCount (s : State) : (applyReset s).reqCount = State.reset.reqCount := rfl
@[simp] theorem applyReset_tx (s : State) : (applyReset s).tx = State.reset.tx := rfl
@[simp] theorem applyReset_fbLen (s : State) : (applyReset s).fbLen = State.reset.fbLen := rfl
@[simp] theorem applyReset_fb (s : State) : (applyReset s).fb = State.reset.fb := rfl
@[simp] theorem applyReset_result (s : State) : (applyReset s).result = State.reset.result := rfl
@[simp] theorem applyReset_bcWarn (s : State) : (applyReset s).bcWarn = State.reset.bcWarn := rfl
@[simp] theorem applyReset_excCode (s : State) : (applyReset s).excCode = State.reset.excCode := rfl
@[simp] theorem applyReset_vcount (s : State) : (applyReset s).vcount = State.reset.vcount := rfl
@[simp] theorem applyReset_values (s : State) : (applyReset s).values = State.reset.values := rfl
@[simp] theorem applyReset_sync (s : State) : (applyReset s).sync = State.reset.sync := rfl
@[simp] theorem applyReset_saddr (s : State) : (applyReset s).saddr = State.reset.saddr := rfl
@[simp] theorem applyReset_huntLen (s : State) : (applyReset s).huntLen = State.reset.huntLen := rfl
@[simp] theorem applyReset_last (s : State) : (applyReset s).last = State.reset.last := rfl
@[simp] theorem applyReset_noise (s : State) : (applyReset s).noise = State.reset.noise := rfl
@[simp] theorem applyReset_remain (s : State) : (applyReset s).remain = State.reset.remain := rfl
@[simp] theorem applyReset_inputs (s : State) : (applyReset s).inputs = s.inputs := rfl
@[simp] theorem applyReset_readData (s : State) : (applyReset s).readData = State.reset.readData := rfl
@[simp] theorem applyReset_draws (s : State) : (applyReset s).draws = s.draws := rfl

end Sys2Proof.Machine
end

