-- ==== Sys2Proof/Laws/Command.lean ====
section
/-! SUPPORT. A command word given by its fields, and commands executed one after another. -/

namespace Sys2Proof.Machine

/-- A word with RSV = 0 and a command's OP runs that command, B being its operand where it has one. -/
theorem runCommand_fieldsWord {op b : Byte} {s : State} {i : Instr} (ho : op = opcode i)
    (hb : ∀ x, byteOperand i = some x → b = x) : runCommand (fieldsWord 0#16 b op) s = exec i s := by
  have h : decode (fieldsWord 0#16 b op) = .ok i := by
    rw [decode_eq_ok_iff]
    exact ⟨by simp, by simpa using ho, by simpa using hb⟩
  simp [runCommand, h]

/-- A word that is no command raises ILL. -/
theorem runCommand_illegal {v : Word} (s : State) (h : rsvOf v ≠ 0#16 ∨ ∀ i, opOf v ≠ opcode i) :
    runCommand v s = .next { s with errIll := true } := by
  obtain ⟨r, hr⟩ := (decode_eq_error_iff v).2 h
  simp [runCommand, hr]

theorem runCommand_of_decode {v : Word} {i : Instr} (s : State) (h : decode v = .ok i) :
    runCommand v s = exec i s := by
  simp [runCommand, h]

theorem execAll_nil (s : State) : execAll [] s = .next s := rfl

theorem execAll_cons {i : Instr} {s t : State} (is : List Instr) (h : exec i s = .next t) :
    execAll (i :: is) s = execAll is t := by
  simp [execAll, h]

theorem execAll_append {s t : State} (is js : List Instr) (h : execAll is s = .next t) :
    execAll (is ++ js) s = execAll js t := by
  induction is generalizing s with
  | nil => cases h; rfl
  | cons i is ih =>
    simp only [List.cons_append, execAll] at h ⊢
    cases he : exec i s with
    | next u => rw [he] at h; exact ih h
    | fault r => rw [he] at h; cases h
    | refused r => rw [he] at h; cases h

theorem feed_cons (b : Byte) (bs : List Byte) {s t : State} (h : exec (.syncByte b) s = .next t) :
    feed (b :: bs) s = feed bs t := execAll_cons _ h

end Sys2Proof.Machine
end

