-- ==== Sys2Proof/Laws/Crc.lean ====
section
/-! SUPPORT. The CRC loop over XOR, the CRC check of a frame cut before its last two bytes, and what big-endian pairing
gives (spec/40_crc.md R101 to R103, spec/41_frame_codec.md R131). -/

namespace Sys2Proof.Machine

theorem crcShift_xor (x y : Half) : crcShift (x ^^^ y) = crcShift x ^^^ crcShift y := by
  simp only [crcShift, BitVec.getLsbD_xor, BitVec.ushiftRight_xor_distrib]
  cases hx : x.getLsbD 0 <;> cases hy : y.getLsbD 0 <;> simp
  · simp only [BitVec.xor_assoc]
  · simp only [BitVec.xor_assoc]
    rw [BitVec.xor_comm 40961#16]
  · rw [BitVec.xor_assoc, BitVec.xor_comm 40961#16, BitVec.xor_assoc]
    simp

theorem crcShifts_xor (n : Nat) (x y : Half) : crcShifts n (x ^^^ y) = crcShifts n x ^^^ crcShifts n y := by
  induction n generalizing x y with
  | zero => rfl
  | succ n ih => simp only [crcShifts, crcShift_xor, ih]

@[simp] theorem crcShifts_zero (n : Nat) : crcShifts n 0#16 = 0#16 := by
  induction n with
  | zero => rfl
  | succ n ih => exact ih

/-- A turn of the loop loses no bit. -/
theorem crcShift_injective : Function.Injective crcShift := by
  intro x y h
  have h0 : ∀ z, crcShift z = 0#16 → z = 0#16 := by
    intro z hz
    unfold crcShift at hz
    split at hz
    · have h15 := congrArg (·.getLsbD 15) hz
      simp at h15
    · rename_i hn
      apply BitVec.eq_of_getLsbD_eq
      intro i hi
      cases i with
      | zero => simpa using hn
      | succ i =>
        have hb := congrArg (·.getLsbD i) hz
        have h16 : i < 16 := by omega
        simpa [h16, Nat.add_comm] using hb
  exact BitVec.xor_eq_zero_iff.1 (h0 (x ^^^ y) (by rw [crcShift_xor, h, BitVec.xor_self]))

theorem crcShifts_injective (n : Nat) : Function.Injective (crcShifts n) := by
  induction n with
  | zero => exact fun _ _ h => h
  | succ n ih => exact fun _ _ h => crcShift_injective (ih h)

theorem crc16_append_singleton (s : List Byte) (b : Byte) : crc16 (s ++ [b]) = crcStep (crc16 s) b := by
  simp [crc16]

theorem halfLE_injective {a b a' b' : Byte} (h : halfLE a b = halfLE a' b') : a = a' ∧ b = b' := by
  constructor <;> apply BitVec.eq_of_getLsbD_eq <;> intro i hi
  · have hb := congrArg (·.getLsbD i) h
    have h16 : i < 16 := by omega
    simpa [halfLE, hi, h16] using hb
  · have hb := congrArg (·.getLsbD (8 + i)) h
    have h16 : 8 + i < 16 := by omega
    have e1 : a.getLsbD (8 + i) = false := BitVec.getLsbD_of_ge _ _ (by omega)
    have e2 : a'.getLsbD (8 + i) = false := BitVec.getLsbD_of_ge _ _ (by omega)
    simpa [halfLE, h16, e1, e2] using hb

/-- The check of R103 on a frame written as its body and its last two bytes. -/
theorem crcOk_append (body : List Byte) (lo hi : Byte) :
    crcOk (body ++ [lo, hi]) = (crc16 body == halfLE lo hi) := by
  simp [crcOk]

/-- Every frame of two bytes or more is such a body and two bytes. -/
theorem exists_eq_append_pair (f : List Byte) (h : 2 ≤ f.length) : ∃ body lo hi, f = body ++ [lo, hi] := by
  obtain ⟨g, hi, rfl⟩ : ∃ g x, f = g ++ [x] := by
    cases f using List.reverseRec with
    | nil => simp at h
    | append_singleton g x _ => exact ⟨g, x, rfl⟩
  obtain ⟨g', lo, rfl⟩ : ∃ g' x, g = g' ++ [x] := by
    cases g using List.reverseRec with
    | nil => simp at h
    | append_singleton g x _ => exact ⟨g, x, rfl⟩
  exact ⟨g', lo, hi, by simp⟩

/-- `bePairs` gives the pairs there are, each high byte first. -/
theorem bePairs_spec (k : Nat) (l : List Byte) (h : 2 * k ≤ l.length) :
    (bePairs k l).length = k ∧ ∀ j, j < k →
      ∃ x y, l[2 * j]? = some x ∧ l[2 * j + 1]? = some y ∧ (bePairs k l)[j]? = some (halfBE x y) := by
  induction k generalizing l with
  | zero => simp [bePairs]
  | succ k ih =>
    match l, h with
    | x :: y :: r, h =>
      obtain ⟨h1, h2⟩ := ih r (by simp at h; omega)
      refine ⟨by simp [bePairs, h1], fun j hj => ?_⟩
      cases j with
      | zero => exact ⟨x, y, rfl, rfl, rfl⟩
      | succ j =>
        obtain ⟨u, v, a, b, c⟩ := h2 j (by omega)
        exact ⟨u, v, by simpa [Nat.mul_add] using a, by simpa [Nat.mul_add] using b, by simpa [bePairs] using c⟩
    | [_], h => simp at h; omega
    | [], h => simp at h

end Sys2Proof.Machine
end

