-- ==== Sys2Proof/Laws/Memory.lean ====
section
/-! SUPPORT. The laws of the RAMs FB and VALUES: a read after a write, spans and lists of entries, and that every write
keeps the canonical form. -/

namespace Sys2Proof.Machine

variable {w : Nat}

@[simp] theorem Memory.read_nil (a : Nat) : Memory.read ([] : Memory w) a = none := rfl

/-- A read after a write: the value written at that index, the old contents elsewhere. -/
theorem Memory.read_write (m : Memory w) (a b : Nat) (v : BitVec w) :
    Memory.read (Memory.write m a v) b = if b = a then some v else Memory.read m b := by
  induction m with
  | nil => simp [Memory.write, Memory.read]
  | cons c m ih =>
    obtain ⟨k, u⟩ := c
    by_cases h : a < k
    · simp [Memory.write, h, Memory.read]
    · by_cases h' : a = k
      · subst h'
        by_cases hb : b = a <;> simp [Memory.write, Memory.read, hb]
      · simp only [Memory.write, h, h', if_false, Memory.read, ih]
        by_cases hb : b = k
        · subst hb
          simp [Ne.symm h']
        · simp [hb]

@[simp] theorem Memory.read_write_same (m : Memory w) (a : Nat) (v : BitVec w) :
    Memory.read (Memory.write m a v) a = some v := by
  simp [Memory.read_write]

theorem Memory.read_write_other (m : Memory w) {a b : Nat} (v : BitVec w) (h : b ≠ a) :
    Memory.read (Memory.write m a v) b = Memory.read m b := by
  simp [Memory.read_write, h]

/-- A read after a list of entries was written from `a` on. -/
theorem Memory.read_writeList (vs : List (BitVec w)) (m : Memory w) (a b : Nat) :
    Memory.read (Memory.writeList m a vs) b =
      if a ≤ b ∧ b < a + vs.length then vs[b - a]? else Memory.read m b := by
  induction vs generalizing m a with
  | nil =>
    have : ¬(a ≤ b ∧ b < a) := by omega
    simp [Memory.writeList, this]
  | cons v vs ih =>
    simp only [Memory.writeList, ih, Memory.read_write, List.length_cons]
    by_cases h : b = a
    · subst h
      simp
    · by_cases h' : a + 1 ≤ b ∧ b < a + 1 + vs.length
      · have h'' : a ≤ b ∧ b < a + (vs.length + 1) := by omega
        have hb : b - a = (b - (a + 1)) + 1 := by omega
        simp [h', h'', hb]
      · have h'' : ¬(a ≤ b ∧ b < a + (vs.length + 1)) := by omega
        rw [if_neg h', if_neg h'', if_neg h]

/-- A span is read exactly if each of its entries is, and holds them in order. -/
theorem Memory.readSpan_eq_some (m : Memory w) (n a : Nat) (f : List (BitVec w)) :
    Memory.readSpan m a n = some f ↔
      f.length = n ∧ ∀ i, i < n → Memory.read m (a + i) = f[i]? := by
  induction n generalizing a f with
  | zero =>
    simp [Memory.readSpan, eq_comm]
  | succ n ih =>
    constructor
    · intro h
      unfold Memory.readSpan at h
      split at h
      · rename_i v vs hv hvs
        obtain rfl := Option.some.inj h
        obtain ⟨hl, hr⟩ := (ih _ _).1 hvs
        refine ⟨by simp [hl], fun i hi => ?_⟩
        cases i with
        | zero => simpa using hv
        | succ i =>
          have := hr i (by omega)
          simpa [Nat.add_assoc, Nat.add_comm 1] using this
      · cases h
    · rintro ⟨hl, hr⟩
      cases f with
      | nil => simp at hl
      | cons v vs =>
        have h0 : Memory.read m a = some v := by simpa using hr 0 (by omega)
        have hvs : Memory.readSpan m (a + 1) n = some vs := by
          refine (ih _ _).2 ⟨by simpa using hl, fun i hi => ?_⟩
          have := hr (i + 1) (by omega)
          simpa [Nat.add_assoc, Nat.add_comm 1] using this
        simp [Memory.readSpan, h0, hvs]

/-- A span whose entries are all written can be read. -/
theorem Memory.readSpan_of_written (m : Memory w) (n a : Nat)
    (h : ∀ i, i < n → (Memory.read m (a + i)).isSome) : ∃ f, Memory.readSpan m a n = some f := by
  induction n generalizing a with
  | zero => exact ⟨[], rfl⟩
  | succ n ih =>
    obtain ⟨v, hv⟩ := Option.isSome_iff_exists.1 (h 0 (by omega))
    obtain ⟨vs, hvs⟩ := ih (a + 1) (fun i hi => by
      simpa [Nat.add_assoc, Nat.add_comm 1] using h (i + 1) (by omega))
    exact ⟨v :: vs, by simp only [Nat.add_zero] at hv; simp [Memory.readSpan, hv, hvs]⟩

theorem Memory.sortedFrom_mono {lo lo' : Nat} (h : lo' ≤ lo) (m : Memory w) :
    Memory.sortedFrom lo m = true → Memory.sortedFrom lo' m = true := by
  cases m with
  | nil => simp [Memory.sortedFrom]
  | cons c m =>
    simp only [Memory.sortedFrom, Bool.and_eq_true, decide_eq_true_eq]
    exact fun hs => ⟨by omega, hs.2⟩

theorem Memory.sortedFrom_write (m : Memory w) (lo a : Nat) (v : BitVec w) (ha : lo ≤ a)
    (h : Memory.sortedFrom lo m = true) : Memory.sortedFrom lo (Memory.write m a v) = true := by
  induction m generalizing lo with
  | nil => simp [Memory.write, Memory.sortedFrom, ha]
  | cons c m ih =>
    obtain ⟨k, u⟩ := c
    simp only [Memory.sortedFrom, Bool.and_eq_true, decide_eq_true_eq] at h
    unfold Memory.write
    split
    · simp only [Memory.sortedFrom, Bool.and_eq_true, decide_eq_true_eq]
      exact ⟨ha, by omega, h.2⟩
    · split
      · subst_vars
        simp [Memory.sortedFrom, ha, h.2]
      · simp only [Memory.sortedFrom, Bool.and_eq_true, decide_eq_true_eq]
        exact ⟨h.1, ih (k + 1) (by omega) h.2⟩

theorem Memory.all_lt_write (m : Memory w) (cap a : Nat) (v : BitVec w) (ha : a < cap)
    (h : m.all (fun c => decide (c.1 < cap)) = true) :
    (Memory.write m a v).all (fun c => decide (c.1 < cap)) = true := by
  induction m with
  | nil => simpa [Memory.write] using ha
  | cons c m ih =>
    obtain ⟨k, u⟩ := c
    simp only [List.all_cons, Bool.and_eq_true, decide_eq_true_eq] at h
    unfold Memory.write
    split
    · simp [ha, h.1, h.2]
    · split
      · simp [ha, h.2]
      · simp [h.1, ih h.2]

/-- A write below the capacity keeps the canonical form. -/
theorem Memory.wf_write {cap : Nat} {m : Memory w} {a : Nat} (v : BitVec w) (ha : a < cap)
    (h : Memory.wf cap m = true) : Memory.wf cap (Memory.write m a v) = true := by
  simp only [Memory.wf, Bool.and_eq_true] at h ⊢
  exact ⟨Memory.sortedFrom_write m 0 a v (Nat.zero_le a) h.1, Memory.all_lt_write m cap a v ha h.2⟩

/-- Writing a list of entries below the capacity keeps the canonical form. -/
theorem Memory.wf_writeList {cap : Nat} (vs : List (BitVec w)) {m : Memory w} {a : Nat}
    (ha : a + vs.length ≤ cap) (h : Memory.wf cap m = true) :
    Memory.wf cap (Memory.writeList m a vs) = true := by
  induction vs generalizing m a with
  | nil => exact h
  | cons v vs ih =>
    rw [List.length_cons] at ha
    exact ih (by omega) (Memory.wf_write v (by omega) h)

end Sys2Proof.Machine
end

