-- ==== Sys2Proof/Laws/Exec.lean ====
section
/-! SUPPORT. What each shared operation and each meaning can answer, said once: the guards with the next states. -/

namespace Sys2Proof.Machine

theorem SyncState.active_iff (x : SyncState) :
    x.active = true ↔ x ∈ [SyncState.hunt, SyncState.count, SyncState.payload] := by
  cases x <;> simp [SyncState.active]

theorem SyncState.not_active_iff (x : SyncState) :
    x.active = false ↔ x ∉ [SyncState.hunt, SyncState.count, SyncState.payload] := by
  cases x <;> simp [SyncState.active]

/-- Appending a byte to FB: room and the byte stored, or no such byte of FB. -/
theorem appendFb_cases (b : Byte) (s : State) :
    (s.fbLen < 260 ∧ appendFb b s = .next { s with fb := s.fb.write s.fbLen b, fbLen := s.fbLen + 1 }) ∨
    (260 ≤ s.fbLen ∧ appendFb b s = .fault .fbIndex) := by
  unfold appendFb
  by_cases h : s.fbLen < 260
  · exact .inl ⟨h, if_pos h⟩
  · exact .inr ⟨by omega, if_neg h⟩

theorem execFbClear_cases (s : State) :
    (s.sync.active = true ∧ execFbClear s = .next { s with errSeq := true }) ∨
    (s.sync.active = false ∧ execFbClear s = .next { s with fbLen := 0, sync := .idle }) := by
  unfold execFbClear
  cases h : s.sync.active <;> simp

theorem execFbPush_cases (b : Byte) (s : State) :
    (s.sync.active = true ∧ execFbPush b s = .next { s with errSeq := true }) ∨
    (s.sync.active = false ∧ s.fbLen = 260 ∧ execFbPush b s = .next { s with errOvf := true }) ∨
    (s.sync.active = false ∧ s.fbLen < 260 ∧ execFbPush b s =
      .next { s with fb := s.fb.write s.fbLen b, fbLen := s.fbLen + 1, sync := .idle }) ∨
    (s.sync.active = false ∧ 260 < s.fbLen ∧ execFbPush b s = .fault .fbIndex) := by
  unfold execFbPush
  cases h : s.sync.active
  · by_cases h' : s.fbLen = 260
    · simp [h']
    · rcases appendFb_cases b { s with sync := .idle } with ⟨hl, he⟩ | ⟨hl, he⟩ <;>
        simp only at hl <;> simp only [Bool.false_eq_true, if_false, h', he]
      · simp [hl]
      · have : 260 < s.fbLen := by omega
        simp [this]
  · simp

theorem execDecode_cases (s : State) :
    (s.sync.active = true ∧ execDecode s = .next { s with errSeq := true }) ∨
    (s.sync.active = false ∧ ∃ f, s.fb.readSpan 0 s.fbLen = some f ∧
      execDecode s = .next (recordDecode (decodeResponse f s.reqCount) s)) ∨
    (s.sync.active = false ∧ s.fb.readSpan 0 s.fbLen = none ∧ execDecode s = .fault .fbUnwritten) := by
  unfold execDecode frameInFb
  cases h : s.sync.active
  · cases hf : s.fb.readSpan 0 s.fbLen <;> simp
  · simp

theorem payloadByte_cases (b : Byte) (s : State) :
    (s.remain = 0 ∧ payloadByte b s = .fault .remainZero) ∨
    (s.remain ≠ 0 ∧ s.fbLen < 260 ∧ payloadByte b s = .next { s with
      fb := s.fb.write s.fbLen b, fbLen := s.fbLen + 1, remain := s.remain - 1
      sync := if s.remain - 1 = 0 then .done else .payload }) ∨
    (s.remain ≠ 0 ∧ 260 ≤ s.fbLen ∧ payloadByte b s = .fault .fbIndex) := by
  unfold payloadByte
  by_cases h : s.remain = 0
  · simp [h]
  · rw [if_neg h]
    rcases appendFb_cases b { s with
      remain := s.remain - 1, sync := if s.remain - 1 = 0 then .done else .payload } with ⟨hl, he⟩ | ⟨hl, he⟩ <;>
      simp only at hl <;> rw [he] <;> simp [h, hl]

theorem markerCompleted_iff (b : Byte) (s : State) :
    markerCompleted b s = true ↔ 1 ≤ s.huntLen ∧ s.last = s.saddr ∧ b = 0x03#8 := by
  simp [markerCompleted, and_assoc]

/-- A byte in HUNT: marker, cap, or on (spec/42_stream_sync.md R155, R156, R157). -/
theorem huntByte_cases (b : Byte) (s : State) :
    ((1 ≤ s.huntLen ∧ s.last = s.saddr ∧ b = 0x03#8) ∧ huntByte b s = { s with
      noise := s.huntLen + 1 - 2, huntLen := s.huntLen + 1, last := b
      fb := (s.fb.write 0 s.saddr).write 1 0x03#8, fbLen := 2, sync := .count }) ∨
    (¬(1 ≤ s.huntLen ∧ s.last = s.saddr ∧ b = 0x03#8) ∧ 100 < s.huntLen + 1 ∧
      huntByte b s = { s with huntLen := s.huntLen + 1, last := b, sync := .fail }) ∨
    (¬(1 ≤ s.huntLen ∧ s.last = s.saddr ∧ b = 0x03#8) ∧ s.huntLen + 1 ≤ 100 ∧
      huntByte b s = { s with huntLen := s.huntLen + 1, last := b }) := by
  rw [← markerCompleted_iff]
  unfold huntByte
  by_cases hm : markerCompleted b s = true
  · exact .inl ⟨hm, if_pos hm⟩
  · rw [if_neg hm]
    by_cases hl : s.huntLen + 1 > 100
    · exact .inr (.inl ⟨hm, hl, if_pos hl⟩)
    · exact .inr (.inr ⟨hm, by omega, if_neg hl⟩)

/-- All that SYNC_BYTE can answer, by STATE. -/
theorem execSyncByte_cases (b : Byte) (s : State) :
    (s.sync = .hunt ∧ execSyncByte b s = .next (huntByte b s)) ∨
    (s.sync = .count ∧ execSyncByte b s =
      .next { s with fb := s.fb.write 2 b, fbLen := 3, remain := b.toNat + 2, sync := .payload }) ∨
    (s.sync = .payload ∧ execSyncByte b s = payloadByte b s) ∨
    ((s.sync = .idle ∨ s.sync = .done ∨ s.sync = .fail) ∧
      execSyncByte b s = .next { s with errSeq := true }) := by
  unfold execSyncByte
  cases h : s.sync <;> simp [h, countByte]

theorem execSyncAbort_cases (s : State) :
    (s.sync.active = true ∧ execSyncAbort s = .next { s with sync := .fail }) ∨
    (s.sync.active = false ∧ execSyncAbort s = .next s) := by
  unfold execSyncAbort
  cases h : s.sync.active <;> simp

end Sys2Proof.Machine
end

