-- ==== Sys2Proof/Laws/PerInstr.lean ====
section
/-! SUPPORT. A statement per command: the fields of the word the encoder writes (spec/30_encoding.md R80, R94). -/

namespace Sys2Proof.Laws.EncodeShape

open Sys2Proof Sys2Proof.Machine

/-- RSV is 0, OP is the command's opcode, and B is its operand, 0 where it has none (log 11). -/
def Statement (i : Instr) : Prop :=
  rsvOf (encode i) = 0#16 ∧ opOf (encode i) = opcode i ∧ byteOf (encode i) = (byteOperand i).getD 0#8

theorem of_commandWord (i : Instr) (h : encode i = commandWord (opcode i) ((byteOperand i).getD 0#8)) :
    Statement i := by
  simp [Statement, h]

theorem crcInit : Statement .crcInit := of_commandWord _ rfl

theorem crcByte (b : Byte) : Statement (.crcByte b) := of_commandWord _ rfl

theorem encode : Statement .encode := of_commandWord _ rfl

theorem fbClear : Statement .fbClear := of_commandWord _ rfl

theorem fbPush (b : Byte) : Statement (.fbPush b) := of_commandWord _ rfl

theorem decode : Statement .decode := of_commandWord _ rfl

theorem syncStart : Statement .syncStart := of_commandWord _ rfl

theorem syncByte (b : Byte) : Statement (.syncByte b) := of_commandWord _ rfl

theorem syncAbort : Statement .syncAbort := of_commandWord _ rfl

end Sys2Proof.Laws.EncodeShape
end

