-- ==== Sys2Proof/Laws/Step.lean ====
section
/-! SUPPORT. What a step does with each kind of host event. -/

namespace Sys2Proof.Machine

theorem step_nil (s : State) (h : s.inputs = []) : step s = .refused .noHostAccess := by
  simp [step, h]

theorem step_cons (s : State) (e : HostEvent) (rest : List HostEvent) (h : s.inputs = e :: rest) :
    step s = performEvent e (takeEvent rest s) := by
  simp [step, h]

/-- An access is accepted exactly if it is well formed. -/
theorem accessRefusal_eq_none_iff (a : Access) : accessRefusal a = none ↔ a.wf = true := by
  unfold accessRefusal Access.wf
  by_cases h1 : a.size = .word <;> by_cases h2 : a.off % 4 = 0 <;> by_cases h3 : a.off < 4096 <;>
    simp [h1, h2, h3, Config.windowBytes]

theorem performAccess_of_not_wf (a : Access) (s : State) (h : a.wf = false) :
    ∃ r, performAccess a s = .refused r := by
  unfold performAccess
  cases hr : accessRefusal a with
  | some r => exact ⟨r, rfl⟩
  | none => rw [(accessRefusal_eq_none_iff a).1 hr] at h; cases h

theorem performAccess_read (off : Nat) (s : State) (h : off % 4 = 0) (h' : off < 4096) :
    performAccess (.read .word off) s = .next (memRead off s) := by
  have : accessRefusal (.read .word off) = none := by
    rw [accessRefusal_eq_none_iff]
    simp [Access.wf, Access.size, Access.off, h, h', Config.windowBytes]
  simp [performAccess, this]

theorem performAccess_write (off : Nat) (v : Word) (s : State) (h : off % 4 = 0) (h' : off < 4096) :
    performAccess (.write .word off v) s = memWrite off v s := by
  have : accessRefusal (.write .word off v) = none := by
    rw [accessRefusal_eq_none_iff]
    simp [Access.wf, Access.size, Access.off, h, h', Config.windowBytes]
  simp [performAccess, this]

/-- A step whose event is an access performs it at the state with the event taken. -/
theorem step_withAccess (a : Access) (rest : List HostEvent) (s : State) :
    step (withAccess a rest s) = performAccess a (takeEvent rest s) := rfl

theorem step_read (off : Nat) (rest : List HostEvent) (s : State) (h : off % 4 = 0) (h' : off < 4096) :
    step (withAccess (.read .word off) rest s) = .next (memRead off (takeEvent rest s)) := by
  rw [step_withAccess, performAccess_read off _ h h']

theorem step_write (off : Nat) (v : Word) (rest : List HostEvent) (s : State) (h : off % 4 = 0) (h' : off < 4096) :
    step (withAccess (.write .word off v) rest s) = memWrite off v (takeEvent rest s) := by
  rw [step_withAccess, performAccess_write off v _ h h']

/-- What a register reads as does not depend on the host's script or on the last data returned. -/
@[simp] theorem readReg_takeEvent (r : Reg) (rest : List HostEvent) (s : State) :
    readReg r (takeEvent rest s) = readReg r s := by
  cases r <;> rfl

/-- A write to an offset that is not CMD's. -/
theorem memWrite_of_ne_cmd (off : Nat) (v : Word) (s : State) (h : regAt off ≠ .cmd) :
    memWrite off v s = .next (writeReg (regAt off) v s) := by
  unfold memWrite
  split
  · exact absurd ‹_› h
  · rfl

/-- A write to CMD runs the command word (spec/20_memory.md R69). -/
theorem memWrite_cmd (v : Word) (s : State) : memWrite 0 v s = runCommand v s := rfl

/-- A well-formed access is a read or a write of a word at an accepted offset. -/
theorem Access.wf_cases (a : Access) (h : a.wf = true) :
    (∃ off, a = .read .word off ∧ off % 4 = 0 ∧ off < 4096) ∨
    (∃ off v, a = .write .word off v ∧ off % 4 = 0 ∧ off < 4096) := by
  cases a with
  | read z off =>
    simp only [Access.wf, Access.size, Access.off, Bool.and_eq_true, beq_iff_eq] at h
    obtain ⟨⟨rfl, h2⟩, h3⟩ := h
    exact .inl ⟨off, rfl, h2, of_decide_eq_true h3⟩
  | write z off v =>
    simp only [Access.wf, Access.size, Access.off, Bool.and_eq_true, beq_iff_eq] at h
    obtain ⟨⟨rfl, h2⟩, h3⟩ := h
    exact .inr ⟨off, v, rfl, h2, of_decide_eq_true h3⟩

/-- A next state of an access comes from a read, a command that decoded, an illegal command word, or another write. -/
theorem performAccess_cases (a : Access) (s t : State) (h : performAccess a s = .next t) :
    (∃ off, a = .read .word off ∧ t = memRead off s) ∨
    (∃ off v i, a = .write .word off v ∧ regAt off = .cmd ∧ decode v = .ok i ∧ exec i s = .next t) ∨
    (∃ off v r, a = .write .word off v ∧ regAt off = .cmd ∧ decode v = .error r ∧ t = { s with errIll := true }) ∨
    (∃ off v, a = .write .word off v ∧ regAt off ≠ .cmd ∧ t = writeReg (regAt off) v s) := by
  have hwf : a.wf = true := by
    cases hw : a.wf with
    | true => rfl
    | false =>
      obtain ⟨r, hr⟩ := performAccess_of_not_wf a s hw
      rw [hr] at h
      cases h
  rcases Access.wf_cases a hwf with ⟨off, rfl, h1, h2⟩ | ⟨off, v, rfl, h1, h2⟩
  · rw [performAccess_read off s h1 h2] at h
    cases h
    exact .inl ⟨off, rfl, rfl⟩
  · rw [performAccess_write off v s h1 h2] at h
    unfold memWrite at h
    split at h
    · rename_i hc
      unfold runCommand at h
      split at h
      · rename_i r hd
        cases h
        exact .inr (.inr (.inl ⟨off, v, r, rfl, hc, hd, rfl⟩))
      · rename_i i hd
        exact .inr (.inl ⟨off, v, i, rfl, hc, hd, h⟩)
    · rename_i r hr
      cases h
      exact .inr (.inr (.inr ⟨off, v, rfl, hr, rfl⟩))

/-- The map's rows have distinct offsets and distinct registers. -/
theorem addressMap_lookup_iff (off : Nat) (r : Reg) :
    addressMap.lookup off = some r ↔ (off, r) ∈ addressMap := by
  constructor
  · intro h
    obtain ⟨l₁, l₂, he, -⟩ := List.lookup_eq_some_iff.1 h
    rw [he]
    simp
  · intro h
    simp only [addressMap, List.mem_cons, Prod.mk.injEq, List.not_mem_nil, or_false] at h
    rcases h with h | h | h | h | h | h | h | h | h | h | h | h | h | h | h | h <;>
      obtain ⟨rfl, rfl⟩ := h <;> rfl

/-- A register of the map stands at its own offset and nowhere else. -/
theorem regAt_eq_iff (off : Nat) (r : Reg) (hr : r ≠ .reserved) (hv : ∀ i, r ≠ .values i) (hf : ∀ k, r ≠ .fbWin k) :
    regAt off = r ↔ (off, r) ∈ addressMap := by
  rw [← addressMap_lookup_iff]
  unfold regAt
  by_cases h1 : 0x200 ≤ off ∧ off ≤ 0x3F8
  · rw [if_pos h1]
    refine ⟨fun h => absurd h.symm (hv _), fun h => ?_⟩
    rw [addressMap_lookup_iff] at h
    simp only [addressMap, List.mem_cons, Prod.mk.injEq, List.not_mem_nil, or_false] at h
    omega
  · rw [if_neg h1]
    by_cases h2 : 0x400 ≤ off ∧ off ≤ 0x500
    · rw [if_pos h2]
      refine ⟨fun h => absurd h.symm (hf _), fun h => ?_⟩
      rw [addressMap_lookup_iff] at h
      simp only [addressMap, List.mem_cons, Prod.mk.injEq, List.not_mem_nil, or_false] at h
      omega
    · rw [if_neg h2]
      cases h : addressMap.lookup off with
      | some q => simp
      | none => simpa using hr.symm

/-- Only offset 0 names CMD (spec/20_memory.md R61). -/
theorem regAt_eq_cmd_iff (off : Nat) : regAt off = .cmd ↔ off = 0 := by
  rw [regAt_eq_iff off .cmd (by simp) (by simp) (by simp)]
  simp [addressMap]

/-- Only offset 4 names ERR. -/
theorem regAt_eq_err_iff (off : Nat) : regAt off = .err ↔ off = 4 := by
  rw [regAt_eq_iff off .err (by simp) (by simp) (by simp)]
  simp [addressMap]

theorem regAt_values (i : Nat) (h : i ≤ 126) : regAt (0x200 + 4 * i) = .values i := by
  have h1 : 0x200 ≤ 0x200 + 4 * i ∧ 0x200 + 4 * i ≤ 0x3F8 := by omega
  have h2 : (0x200 + 4 * i - 0x200) / 4 = i := by omega
  rw [regAt, if_pos h1, h2]

theorem regAt_fbWin (k : Nat) (h : k ≤ 64) : regAt (0x400 + 4 * k) = .fbWin k := by
  have h1 : ¬(0x200 ≤ 0x400 + 4 * k ∧ 0x400 + 4 * k ≤ 0x3F8) := by omega
  have h2 : 0x400 ≤ 0x400 + 4 * k ∧ 0x400 + 4 * k ≤ 0x500 := by omega
  have h3 : (0x400 + 4 * k - 0x400) / 4 = k := by omega
  rw [regAt, if_neg h1, if_pos h2, h3]

theorem regAt_reserved (off : Nat)
    (h : (0x040 ≤ off ∧ off ≤ 0x1FC) ∨ off = 0x3FC ∨ (0x504 ≤ off ∧ off ≤ 0xFFC)) : regAt off = .reserved := by
  have h1 : ¬(0x200 ≤ off ∧ off ≤ 0x3F8) := by omega
  have h2 : ¬(0x400 ≤ off ∧ off ≤ 0x500) := by omega
  rw [regAt, if_neg h1, if_neg h2]
  cases hl : addressMap.lookup off with
  | none => rfl
  | some r =>
    rw [addressMap_lookup_iff] at hl
    simp only [addressMap, List.mem_cons, Prod.mk.injEq, List.not_mem_nil, or_false] at hl
    omega

end Sys2Proof.Machine
end

