-- ==== Sys2Proof/Laws/Window.lean ====
section
/-! SUPPORT. The four lanes of a bus word (spec/20_memory.md R72, R74), and what a VALUES entry reads as (R71). -/

namespace Sys2Proof.Machine

theorem lanes_lane0 (a b c d : Byte) : (lanes a b c d).extractLsb' 0 8 = a := by
  apply BitVec.eq_of_getLsbD_eq
  intro i hi
  have h1 : i < 16 := by omega
  have h2 : i < 24 := by omega
  have h3 : i < 32 := by omega
  simp [lanes, hi, h1, h2, h3]

theorem lanes_lane1 (a b c d : Byte) : (lanes a b c d).extractLsb' 8 8 = b := by
  apply BitVec.eq_of_getLsbD_eq
  intro i hi
  have h1 : 8 + i < 16 := by omega
  have h2 : 8 + i < 24 := by omega
  have h3 : 8 + i < 32 := by omega
  have h4 : ¬8 + i < 8 := by omega
  simp [lanes, hi, h1, h2, h3, h4]

theorem lanes_lane2 (a b c d : Byte) : (lanes a b c d).extractLsb' 16 8 = c := by
  apply BitVec.eq_of_getLsbD_eq
  intro i hi
  have h0 : a.getLsbD (16 + i) = false := BitVec.getLsbD_of_ge _ _ (by omega)
  have h5 : b.getLsbD (16 + i - 8) = false := BitVec.getLsbD_of_ge _ _ (by omega)
  have h1 : ¬16 + i < 16 := by omega
  have h2 : 16 + i < 24 := by omega
  have h3 : 16 + i < 32 := by omega
  have h4 : ¬16 + i < 8 := by omega
  simp [lanes, hi, h0, h1, h2, h3, h4, h5]

theorem lanes_lane3 (a b c d : Byte) : (lanes a b c d).extractLsb' 24 8 = d := by
  apply BitVec.eq_of_getLsbD_eq
  intro i hi
  have h0 : a.getLsbD (24 + i) = false := BitVec.getLsbD_of_ge _ _ (by omega)
  have h5 : b.getLsbD (24 + i - 8) = false := BitVec.getLsbD_of_ge _ _ (by omega)
  have h6 : c.getLsbD (24 + i - 16) = false := BitVec.getLsbD_of_ge _ _ (by omega)
  have h1 : ¬24 + i < 16 := by omega
  have h2 : ¬24 + i < 24 := by omega
  have h3 : 24 + i < 32 := by omega
  have h4 : ¬24 + i < 8 := by omega
  simp [lanes, hi, h0, h1, h2, h3, h4, h5, h6]

/-- A VALUES entry reads as 16 bits zero-extended: its contents, or the draw. -/
theorem valuesWord_cases (s : State) (i d : Nat) :
    (∃ x, s.values.read i = some x ∧ valuesWord s i d = x.setWidth 32) ∨
    (s.values.read i = none ∧ valuesWord s i d = (Config.freeHalf d).setWidth 32) := by
  unfold valuesWord
  cases h : s.values.read i with
  | some x => exact .inl ⟨x, rfl, rfl⟩
  | none => exact .inr ⟨rfl, rfl⟩

end Sys2Proof.Machine
end

