-- ==== Sys2Proof/Tests/Slice0.lean ====
section
/-! SUPPORT. Tests on fixed values and a witness for the hypotheses of each statement. Expected values are from
spec/95_test_vectors.md (section named), from a rule's own example (rule named), or worked out by hand from the rule. -/

namespace Sys2Proof.Tests

open Sys2Proof Sys2Proof.Machine

/-! ### States the tests start from -/

/-- The frame FR of 95_test_vectors.md section 3. -/
def fr : List Byte := [0x01#8, 0x03#8, 0x02#8, 0x00#8, 0x2A#8, 0x39#8, 0x9B#8]

/-- Bytes in FB as LOAD_FB leaves them (30_encoding.md R93). -/
def inFb (f : List Byte) : State :=
  { State.reset with fb := Memory.writeList [] 0 f, fbLen := f.length }

/-- A search for address 0x01 that has taken `n` bytes, the last of them `l`. -/
def hunting (n : Nat) (l : Byte) : State :=
  { State.reset with reqAddr := 0x01#8, saddr := 0x01#8, sync := .hunt, huntLen := n, last := l }

/-- The marker of address 0x01 was found without noise. -/
def counting : State :=
  { inFb [0x01#8, 0x03#8] with
    reqAddr := 0x01#8, saddr := 0x01#8, sync := .count, huntLen := 2, last := 0x03#8 }

/-- The first `n` bytes of FR were fed, `n` from 3 to 6. -/
def inPayload (n : Nat) : State :=
  { inFb (fr.take n) with
    reqAddr := 0x01#8, saddr := 0x01#8, sync := .payload, huntLen := 2, last := 0x03#8, remain := 7 - n }

/-- All of FR was fed. -/
def synced : State :=
  { inFb fr with reqAddr := 0x01#8, saddr := 0x01#8, sync := .done, huntLen := 2, last := 0x03#8 }

/-- FB full. -/
def full : State := { State.reset with fb := Memory.writeList [] 0 (List.replicate 260 0x00#8), fbLen := 260 }

/-- The next state of an outcome, none if it stops. -/
def after : Host.Outcome State Fault Refusal → Option State
  | .next t => some t
  | .fault _ => none
  | .refused _ => none

/-- The refusal of an outcome, none if it is no refusal. -/
def refusal : Host.Outcome State Fault Refusal → Option Refusal
  | .next _ => none
  | .fault _ => none
  | .refused r => some r

/-! ### Well-formedness: an ill-formed term for each check -/

theorem test_wf_refuses_byte_access : (Access.read .byte 0x004).wf = false := by decide

theorem test_wf_refuses_half_access : (Access.write .half 0x00C 0x1#32).wf = false := by decide

theorem test_wf_refuses_burst : (Access.read .other 0x400).wf = false := by decide

theorem test_wf_refuses_misaligned : (Access.read .word 0x006).wf = false := by decide

theorem test_wf_refuses_outside : (Access.write .word 0x1000 0x1#32).wf = false := by decide

theorem test_wf_takes_last_word : (Access.read .word 0xFFC).wf = true := by decide

/-! ### Decoding, the words written out from 30_encoding.md R80 and R82 (RSV, B, OP) -/

theorem test_decode_crcInit : decode 0b0000000000000000_00000000_00000001#32 = .ok .crcInit := rfl

theorem test_decode_crcByte : decode 0b0000000000000000_11000101_00000010#32 = .ok (.crcByte 0xC5#8) := rfl

theorem test_decode_encode : decode 0b0000000000000000_00000000_00010000#32 = .ok .encode := rfl

theorem test_decode_fbClear : decode 0b0000000000000000_00000000_00100000#32 = .ok .fbClear := rfl

theorem test_decode_fbPush : decode 0b0000000000000000_10101010_00100001#32 = .ok (.fbPush 0xAA#8) := rfl

theorem test_decode_decode : decode 0b0000000000000000_00000000_00100010#32 = .ok .decode := rfl

theorem test_decode_syncStart : decode 0b0000000000000000_00000000_00110000#32 = .ok .syncStart := rfl

theorem test_decode_syncByte : decode 0b0000000000000000_01010101_00110001#32 = .ok (.syncByte 0x55#8) := rfl

theorem test_decode_syncAbort : decode 0b0000000000000000_00000000_00110010#32 = .ok .syncAbort := rfl

/-- 95_test_vectors.md section 4, X1 to X3. -/
theorem test_decode_unassigned :
    decode 0x00000000#32 = .error (.unassignedOp 0x00#8) ∧
    decode 0x000000FF#32 = .error (.unassignedOp 0xFF#8) ∧
    decode 0x00000003#32 = .error (.unassignedOp 0x03#8) := ⟨rfl, rfl, rfl⟩

/-- X4, X5, and X7: RSV first. -/
theorem test_decode_reserved :
    decode 0x00010001#32 = .error (.reservedNonzero 0x0001#16) ∧
    decode 0x80000010#32 = .error (.reservedNonzero 0x8000#16) ∧
    decode 0x00010021#32 = .error (.reservedNonzero 0x0001#16) := ⟨rfl, rfl, rfl⟩

/-- X6: B is ignored. -/
theorem test_decode_ignores_b : decode 0x0000AB10#32 = .ok .encode := rfl

/-- 30_encoding.md R94, and a word above 32 bits. -/
theorem test_decodeTableWord :
    decodeTableWord 32 0x00000331 = some (.syncByte 0x03#8) ∧ decodeTableWord 8 0x132 = some .syncAbort ∧
    decodeTableWord 32 0x00 = none ∧ decodeTableWord 40 0x01 = none := by decide

/-! ### CRC engine (95_test_vectors.md 2.1) -/

theorem test_crcStep_table :
    crcStep 0xFFFF#16 0x00#8 = 0x40BF#16 ∧ crcStep 0xFFFF#16 0x80#8 = 0xE0BE#16 ∧
    crcStep 0x0000#16 0xFF#8 = 0x4040#16 ∧ crcStep 0x1234#16 0x03#8 = 0xD653#16 := by decide

theorem test_crc16_check :
    crc16 [0x31#8, 0x32#8, 0x33#8, 0x34#8, 0x35#8, 0x36#8, 0x37#8, 0x38#8, 0x39#8] = 0x4B37#16 ∧
    crc16 [0x01#8, 0x03#8, 0x02#8, 0x00#8, 0x2A#8] = 0x9B39#16 := by decide +kernel

theorem test_crcOk : crcOk fr = true ∧ crcOk [0x01#8, 0x03#8, 0x02#8, 0x00#8, 0x2A#8, 0x9B#8, 0x39#8] = false := by
  decide +kernel

/-- R104's example. -/
theorem test_crcInit :
    after (exec .crcInit { State.reset with acc := 0x1234#16 }) = some { State.reset with acc := 0xFFFF#16 } := by decide

/-- R105's example. -/
theorem test_crcByte : after (exec (.crcByte 0x01#8) State.reset) = some { State.reset with acc := 0x807E#16 } := by decide

/-- The stream's second step, 01 03. -/
theorem test_crcByte_streams :
    after (exec (.crcByte 0x03#8) { State.reset with acc := 0x807E#16 }) =
      some { State.reset with acc := 0x2140#16 } := by decide

/-! ### Frame codec (95_test_vectors.md 2.2 and 2.3) -/

/-- 2.2 row 10. -/
theorem test_encode :
    (encodeRequest 0xF7#8 0x03#8 0x1234#16 0x007D#16).toList =
      [0xF7#8, 0x03#8, 0x12#8, 0x34#8, 0x00#8, 0x7D#8, 0xD5#8, 0xCB#8] := by decide +kernel

/-- 2.2 row 4: ENCODE right after reset. -/
theorem test_encode_after_reset :
    after (exec .encode State.reset) =
      some { State.reset with tx := #v[0x00#8, 0x03#8, 0x00#8, 0x00#8, 0x00#8, 0x00#8, 0x44#8, 0x1B#8] } := by
  decide +kernel

/-- R123's example: STATE is left DONE, and FB's bytes stay. -/
theorem test_fbClear : after (exec .fbClear synced) = some { synced with fbLen := 0, sync := .idle } := by decide

theorem test_fbClear_rejected : after (exec .fbClear counting) = some { counting with errSeq := true } := by decide

/-- 2.3: STATE = FAIL with FB_LEN = 4, FB_PUSH 0x55. -/
theorem test_fbPush :
    after (exec (.fbPush 0x55#8) { inPayload 4 with sync := .fail }) =
      some { inPayload 4 with
        fb := [(0, 0x01#8), (1, 0x03#8), (2, 0x02#8), (3, 0x00#8), (4, 0x55#8)], fbLen := 5, sync := .idle } := by
  decide

/-- X9. -/
theorem test_fbPush_overflow : after (exec (.fbPush 0x00#8) { State.reset with fbLen := 260 }) =
    some { State.reset with fbLen := 260, errOvf := true } := by decide

/-- DV4, and DV14: the exception bit beats the CRC (R127). -/
theorem test_decodeResponse :
    decodeResponse [0x01#8, 0x03#8, 0x06#8, 0x12#8, 0x34#8, 0x56#8, 0x78#8, 0x9A#8, 0xBC#8, 0x69#8, 0x43#8] 3#16 =
      .ok [0x1234#16, 0x5678#16, 0x9ABC#16] false ∧
    decodeResponse [0x01#8, 0x83#8, 0x02#8, 0x00#8, 0x00#8] 0#16 = .funcExc 0x02#8 := by decide +kernel

/-- DV2 as a command. -/
theorem test_decode_command :
    after (exec .decode { synced with reqCount := 2#16 }) =
      some { synced with
        reqCount := 2#16, result := .ok, bcWarn := true, vcount := 1, values := [(0, 0x002A#16)] } := by decide +kernel

/-- DV20 after a success: VALUES keeps its entry, VCOUNT does not (R135). -/
theorem test_decode_short :
    after (exec .decode { inFb [0x01#8, 0x83#8] with values := [(0, 0x002A#16)], vcount := 1, result := .ok }) =
      some { inFb [0x01#8, 0x83#8] with values := [(0, 0x002A#16)], vcount := 0, result := .short } := by decide

/-! ### Stream synchronizer (95_test_vectors.md section 3) -/

/-- S18: a restart drops the partial search and latches the new address. -/
theorem test_syncStart :
    after (exec .syncStart { inPayload 4 with reqAddr := 0x02#8 }) =
      some { inPayload 4 with
        reqAddr := 0x02#8, saddr := 0x02#8, sync := .hunt, huntLen := 0, last := 0x00#8, remain := 0
        fbLen := 0 } := by decide

/-- S7: the marker completes at L = 101. -/
theorem test_syncByte_marker :
    after (exec (.syncByte 0x03#8) (hunting 100 0x01#8)) =
      some { hunting 101 0x03#8 with
        noise := 99, fb := [(0, 0x01#8), (1, 0x03#8)], fbLen := 2, sync := .count } := by decide

/-- S5b and S8: the cap, and no marker at the first byte. -/
theorem test_syncByte_no_marker :
    after (exec (.syncByte 0x55#8) (hunting 100 0x55#8)) = some { hunting 101 0x55#8 with sync := .fail } ∧
    after (exec (.syncByte 0x03#8) { State.reset with sync := .hunt }) =
      some { State.reset with sync := .hunt, huntLen := 1, last := 0x03#8 } := by decide

/-- S16. -/
theorem test_syncAbort : after (exec .syncAbort (inPayload 4)) = some { inPayload 4 with sync := .fail } := by decide

/-- S17. -/
theorem test_syncAbort_outside : after (exec .syncAbort State.reset) = some State.reset := by decide

/-! ### Steps, the register window and reset -/

/-- A word placed at reset is what the very next step runs. -/
theorem test_withFetchWord :
    after (step (State.reset.withFetchWord 32 0x00000102)) = some { State.reset with acc := 0x807E#16 } := by decide

/-- P1: TX_HI after the first ENCODE, its CRC low byte in lane 2. -/
theorem test_read_txHi :
    after (step (withAccess (.read .word 0x020) [] { State.reset with
        tx := #v[0x01#8, 0x03#8, 0x00#8, 0x00#8, 0x00#8, 0x0A#8, 0xC5#8, 0xCD#8] })) =
      some { State.reset with
        tx := #v[0x01#8, 0x03#8, 0x00#8, 0x00#8, 0x00#8, 0x0A#8, 0xC5#8, 0xCD#8]
        readData := some 0xCDC50A00#32 } := by decide

/-- X16, and U1: the upper half of an unwritten VALUES entry reads 0, whatever the draw is. -/
theorem test_read_cmd_and_unwritten :
    readReg (regAt 0x000) synced = 0x00000000#32 ∧
    (readReg (regAt 0x200) State.reset).extractLsb' 16 16 = 0x0000#16 := by
  refine ⟨rfl, ?_⟩
  show ((Config.freeHalf 0).setWidth 32).extractLsb' 16 16 = 0x0000#16
  ext i hi
  simp

/-- P3: FB_WIN[0] and DEC_STATUS; P2: DEC_STATUS of an exception. -/
theorem test_read_words :
    readReg (regAt 0x400) synced = 0x00020301#32 ∧
    readReg (regAt 0x028) { State.reset with result := .funcExc, excCode := 0x02#8 } = 0x00000203#32 ∧
    readReg (regAt 0x030) (hunting 4 0x55#8) = 0x00000101#32 ∧
    readReg (regAt 0x034) (hunting 4 0x55#8) = 0x00005504#32 := by decide

/-- X11. -/
theorem test_write_err :
    after (step (withAccess (.write .word 0x004 0x2#32) []
        { State.reset with errIll := true, errSeq := true, errOvf := true })) =
      some { State.reset with errIll := true, errOvf := true } := by decide

/-- X14. -/
theorem test_write_readOnly :
    after (step (withAccess (.write .word 0x008 0x1234#32) [] State.reset)) = some State.reset := by decide

/-- 20_memory.md R63, and no step without an access. -/
theorem test_refused :
    refusal (step (withAccess (.read .half 0x004) [] State.reset)) = some .unsupportedSize ∧
    refusal (step (withAccess (.write .word 0x002 0#32) [] State.reset)) = some .misalignedOffset ∧
    refusal (step (withAccess (.read .word 0x1000) [] State.reset)) = some .outsideWindow ∧
    refusal (step State.reset) = some .noHostAccess := by decide

/-- 70_reset_and_hazards.md R210, R212: reset marks FB and VALUES unwritten. -/
theorem test_reset_event :
    after (step { synced with values := [(0, 0x002A#16)], errSeq := true, inputs := [.reset] }) = some State.reset := by
  decide

/-- X7, X8: RSV is checked before the synchronizer's state. -/
theorem test_check_order :
    after (runCommand 0x00010021#32 (hunting 0 0x00#8)) = some { hunting 0 0x00#8 with errIll := true } ∧
    after (runCommand 0x00000121#32 (hunting 0 0x00#8)) = some { hunting 0 0x00#8 with errSeq := true } := by decide

/-! ### Witnesses: for each statement with hypotheses, values that meet them, its clauses at their boundaries -/

/-- A state in PAYLOAD that meets the invariant, one byte before DONE if `n` is 6. -/
theorem inPayload_inv (n : Nat) (h : n = 3 ∨ n = 6) : BlockInv (inPayload n) := by
  rcases h with rfl | rfl <;>
    exact {
      fbLen_le := by decide
      fb_written := by decide
      vcount_le := by decide
      values_written := by decide
      in_count := by decide
      in_payload := fun _ => ⟨by decide, 0x02#8, by decide, by decide⟩
      in_done := by decide
      in_hunt := by decide
      warn_only_ok := by decide
      code_only_exc := by decide
      fb_wf := by decide
      values_wf := by decide
      payload_marker := by decide
      huntLen_le := by decide
      noise_le := by decide
      remain_le := by decide }

/-- A state in DONE that meets R45. -/
theorem synced_r45 : R45 synced where
  fbLen_le := by decide
  fb_written := by decide
  vcount_le := by decide
  values_written := by decide
  in_count := by decide
  in_payload := by decide
  in_done := fun _ => ⟨⟨0x02#8, by decide, by decide⟩, by decide, by decide⟩
  in_hunt := by decide
  warn_only_ok := by decide
  code_only_exc := by decide

theorem witness_DecodeOfEncodeIsTheCommand :
    (Instr.fbPush 0xA5#8).wf = true ∧ Instr.syncAbort.wf = true := by decide

theorem witness_DecoderSelectsByMaskedWord :
    (0x00000000#32 &&& 0xFFFF00FF#32) ∉
      [0x01#32, 0x02#32, 0x10#32, 0x20#32, 0x21#32, 0x22#32, 0x30#32, 0x31#32, 0x32#32] ∧
    (0x80000010#32 &&& 0xFFFF00FF#32) ∉
      [0x01#32, 0x02#32, 0x10#32, 0x20#32, 0x21#32, 0x22#32, 0x30#32, 0x31#32, 0x32#32] := by decide

theorem witness_IllegalWordsAreExactly :
    0x0001#16 ≠ 0#16 ∧
    0x33#8 ∉ [0x01#8, 0x02#8, 0x10#8, 0x20#8, 0x21#8, 0x22#8, 0x30#8, 0x31#8, 0x32#8] := by decide

theorem witness_StepRunsTheDecodedCommand :
    (decode 0x0000AB10#32 = .ok .encode ∧ Instr.encode.wf = true) ∧
    decode 0x00000000#32 = .error (.unassignedOp 0x00#8) ∧
    decode 0x00010001#32 = .error (.reservedNonzero 0x0001#16) := ⟨⟨rfl, rfl⟩, rfl, rfl⟩

theorem witness_StepPerformsTheFirstEventOnly :
    step (withAccess (.write .word 0x000 0x00000001#32) [.reset] State.reset) =
      .next { State.reset with inputs := [.reset] } := rfl

theorem witness_MeaninglessAccessesAreRefused :
    (Access.read .byte 0x004).size ≠ .word ∧ (Access.write .word 0x006 0#32).off % 4 ≠ 0 := by decide

theorem witness_NoStepOutsideTheWindowOrWithoutAnAccess :
    4096 ≤ (Access.read .word 0x1000).off := by decide

theorem witness_ReadsReturnTheRegisterAndChangeNothing : 0xFFC % 4 = 0 ∧ 0xFFC < 4096 := by decide

/-- A register, a written VALUES entry, and an FB_WIN word all written. -/
theorem witness_ReadingTwiceGivesTheSameWord :
    (∃ t, step (withAccess (.read .word 0x400) [] synced) = .next t) ∧
    (∀ i, regAt 0x008 ≠ .values i) ∧ (∀ k, regAt 0x008 ≠ .fbWin k) ∧
    (regAt 0x200 = .values 0 ∧ (Memory.read [(0, 0x002A#16)] 0).isSome) ∧
    (regAt 0x400 = .fbWin 0 ∧ ∀ j, j < 4 → (synced.fb.read (4 * 0 + j)).isSome) := by
  refine ⟨⟨_, rfl⟩, ?_, ?_, ⟨rfl, rfl⟩, rfl, by decide⟩ <;> intro i h <;> cases h

theorem witness_ReadOnlyWritesHaveNoEffect :
    0x03C ∈ [0x008, 0x01C, 0x020, 0x024, 0x028, 0x02C, 0x030, 0x034, 0x038, 0x03C] ∧
    (∃ i, i ≤ 126 ∧ 0x200 = 0x200 + 4 * i) ∧ (∃ i, i ≤ 126 ∧ 0x3F8 = 0x200 + 4 * i) ∧
    (∃ k, k ≤ 64 ∧ 0x400 = 0x400 + 4 * k) ∧ (∃ k, k ≤ 64 ∧ 0x500 = 0x400 + 4 * k) :=
  ⟨by decide, ⟨0, by decide, rfl⟩, ⟨126, by decide, rfl⟩, ⟨0, by decide, rfl⟩, ⟨64, by decide, rfl⟩⟩

theorem witness_ReservedOffsetsAndBitsReadZeroAndIgnoreWrites :
    (∀ off ∈ [0x040, 0x1FC, 0x3FC, 0x504, 0xFFC], off % 4 = 0 ∧
      ((0x040 ≤ off ∧ off ≤ 0x1FC) ∨ off = 0x3FC ∨ (0x504 ≤ off ∧ off ≤ 0xFFC))) ∧
    (0x004, 0x00000007#32) ∈ [(0x004, 0x00000007#32)] ∧
    (0 ≤ 126 ∧ 126 ≤ 126) ∧
    0xFFFFFF01#32 &&& 0x000000FF#32 = 0x00000001#32 &&& 0x000000FF#32 := by decide

theorem witness_RegistersReadTheirFields : BlockInv (inPayload 3) := inPayload_inv 3 (.inl rfl)

theorem witness_ValuesWindowReadsTheEntries :
    0 ≤ 126 ∧ 126 ≤ 126 ∧ Memory.read [(126, 0x1234#16)] 126 = some 0x1234#16 ∧
    Memory.read [(126, 0x1234#16)] 0 = none := by decide

theorem witness_FbWindowReadsFourLanes :
    0 ≤ 64 ∧ 64 ≤ 64 ∧ 3 < 4 ∧ synced.fb.read (4 * 1 + 2) = some 0x9B#8 ∧ synced.fb.read (4 * 1 + 3) = none := by
  decide

theorem witness_CrcOkComparesTheTrailingBytes : 2 ≤ [0xFF#8, 0xFF#8].length := by decide

theorem witness_ValidFramesLeaveResidueZero :
    2 ≤ [0xFF#8, 0xFF#8].length ∧ crcOk [0xFF#8, 0xFF#8] = true := by decide

/-- RSV ≠ 0, for the statements of CRC_INIT, CRC_BYTE and ENCODE. -/
theorem witness_CrcInitSeedsTheAccumulator : 0x0001#16 ≠ 0#16 := by decide

theorem witness_CrcByteFeedsOneByte : 0x8000#16 ≠ 0#16 := by decide

theorem witness_EncodeBuildsTheRequestFrame : 0x0001#16 ≠ 0#16 := by decide

theorem witness_StreamedCrcIsCrc16 :
    Instr.crcInit ∉ [Instr.crcByte 0x01#8, .syncAbort] ∧
    execAll [.crcInit, .crcByte 0x01#8, .syncAbort] State.reset =
      .next { State.reset with acc := 0x807E#16 } := ⟨by decide, rfl⟩

theorem witness_OnlyCrcCommandsTouchTheAccumulator :
    Instr.fbClear ≠ .crcInit ∧ (∀ b, Instr.fbClear ≠ .crcByte b) ∧
    exec .fbClear State.reset = .next State.reset := ⟨by decide, fun _ h => (by cases h), rfl⟩

/-- FB_CLEAR and DECODE: outside a search and in one. -/
theorem witness_FbClearEmptiesTheBuffer :
    synced.sync ∉ [SyncState.hunt, .count, .payload] ∧ counting.sync ∈ [SyncState.hunt, .count, .payload] ∧
    0x0001#16 ≠ 0#16 := by decide

/-- The 260th push, the 261st, and one in a search. -/
theorem witness_FbPushAppendsOneByte :
    (full.sync ∉ [SyncState.hunt, .count, .payload] ∧ full.fbLen = 260 ∧ full.fbLen ≤ 260) ∧
    (({ full with fbLen := 259 } : State).fbLen < 260) ∧
    (counting.fbLen ≤ 260 ∧ counting.sync ∈ [SyncState.hunt, .count, .payload]) ∧ 0x0001#16 ≠ 0#16 := by
  refine ⟨⟨by decide, rfl, by decide⟩, by decide, by decide, by decide⟩

/-- DV21 (length 4), DV14 (bit 7), DV19 (length 5, CRC), DV6 (length 5, accepted), and a COUNT of 128. -/
theorem witness_DecodeResponseFollowsTheRules :
    [0x01#8, 0x83#8, 0x02#8, 0xC0#8].length < 5 ∧
    (5 ≤ [0x01#8, 0x83#8, 0x02#8, 0x00#8, 0x00#8].length ∧ (0x83#8).getLsbD 7 = true) ∧
    ((0x03#8).getLsbD 7 = false ∧
      crc16 ([0x01#8, 0x03#8, 0x02#8, 0x00#8, 0x2A#8].take 3) ≠ (0x00#8).setWidth 16 ||| ((0x2A#8).setWidth 16 <<< 8)) ∧
    crc16 ([0x01#8, 0x03#8, 0x00#8, 0x20#8, 0xF0#8].take 3) = (0x20#8).setWidth 16 ||| ((0xF0#8).setWidth 16 <<< 8) ∧
    128 ≤ (128#16).toNat := by decide +kernel

theorem witness_DecodedValuesStayInBounds :
    fr.length ≤ 260 ∧ decodeResponse fr 1#16 = .ok [0x002A#16] false ∧ 0 < [0x002A#16].length := by decide +kernel

/-- Every byte written, outside a search, and each outcome: DV1, DV21, DV14, DV19; then a search. -/
theorem witness_DecodeRecordsTheOutcome :
    ((∀ i, i < synced.fbLen → (synced.fb.read i).isSome) ∧
      synced.sync ∉ [SyncState.hunt, .count, .payload] ∧ decodeResponse fr 1#16 = .ok [0x002A#16] false) ∧
    decodeResponse [0x01#8, 0x83#8, 0x02#8, 0xC0#8] 0#16 = .short ∧
    decodeResponse [0x01#8, 0x83#8, 0x02#8, 0x00#8, 0x00#8] 1#16 = .funcExc 0x02#8 ∧
    decodeResponse [0x01#8, 0x03#8, 0x02#8, 0x00#8, 0x2A#8] 1#16 = .crcMismatch ∧
    ((∀ i, i < counting.fbLen → (counting.fb.read i).isSome) ∧
      counting.sync ∈ [SyncState.hunt, .count, .payload]) ∧ 0x0001#16 ≠ 0#16 := by decide +kernel

theorem witness_EncodedRequestsDecode : (0x03#8).getLsbD 7 = false ∧ (0x83#8).getLsbD 7 = true := by decide

/-- An accepted frame, its last bit, and the exception bit. -/
theorem witness_SingleBitFlipsAreDetected :
    decodeResponse fr 1#16 = .ok [0x002A#16] false ∧ 6 < fr.length ∧ 7 < 8 ∧ ¬(6 = 1 ∧ 7 = 7) ∧
    (1 = 1 ∧ 7 = 7 ∧ 1 < fr.length) := by decide +kernel

theorem witness_SynchronizedFramesAreNeverShortOrException : R45 synced ∧ synced.sync = .done := ⟨synced_r45, rfl⟩

theorem witness_SyncStartBeginsASearch : 0x0001#16 ≠ 0#16 := by decide

/-- The marker at L = 101 and at L = 2; the cap at L = 101; on at L = 100 and at L = 1. -/
theorem witness_HuntTakesAByte :
    ((hunting 100 0x01#8).sync = .hunt ∧ 1 ≤ (hunting 100 0x01#8).huntLen ∧
      (hunting 100 0x01#8).last = (hunting 100 0x01#8).saddr ∧ 0x03#8 = 0x03#8 ∧ (hunting 100 0x01#8).huntLen ≤ 100) ∧
    1 ≤ (hunting 1 0x01#8).huntLen ∧
    (¬((hunting 100 0x55#8).last = (hunting 100 0x55#8).saddr) ∧ (hunting 100 0x55#8).huntLen + 1 > 100) ∧
    (¬((hunting 99 0x55#8).last = (hunting 99 0x55#8).saddr) ∧ (hunting 99 0x55#8).huntLen + 1 ≤ 100) ∧
    (¬1 ≤ (hunting 0 0x01#8).huntLen) := by decide

theorem witness_CountTakesTheByteCount : counting.sync = .count := rfl

/-- PAYLOAD with one byte to come, and with more. -/
theorem witness_PayloadStoresUntilTheFrameIsWhole :
    (BlockInv (inPayload 6) ∧ (inPayload 6).sync = .payload ∧ (inPayload 6).remain = 1) ∧
    (BlockInv (inPayload 3) ∧ (inPayload 3).sync = .payload ∧ (inPayload 3).remain = 4) :=
  ⟨⟨inPayload_inv 6 (.inr rfl), rfl, rfl⟩, inPayload_inv 3 (.inl rfl), rfl, rfl⟩

theorem witness_SyncByteOutsideASearchIsRejected :
    State.reset.sync = .idle ∧ synced.sync = .done ∧ ({ hunting 101 0x55#8 with sync := .fail } : State).sync = .fail := by
  decide

theorem witness_SyncAbortFailsASearch :
    (inPayload 4).sync ∈ [SyncState.hunt, .count, .payload] ∧
    synced.sync ∉ [SyncState.hunt, .count, .payload] ∧ 0x0001#16 ≠ 0#16 := by decide

theorem witness_StateMovesAsTheDiagramSays :
    exec .syncStart State.reset = .next { State.reset with sync := .hunt } := rfl

/-- S3: 99 bytes of noise before FR. -/
theorem witness_NoiseBeforeAFrameIsDiscarded :
    (List.replicate 99 0x55#8).length ≤ 99 ∧ [0x00#8, 0x2A#8].length = (0x02#8).toNat ∧
    ∀ i, i ≤ 99 → ¬ markerAt 0x01#8 (List.replicate 99 0x55#8 ++ fr) i := by
  unfold markerAt
  decide +kernel

theorem witness_EverySearchThatIsFedEnds :
    counting.sync = .count ∧ (BlockInv (inPayload 6) ∧ (inPayload 6).sync = .payload) ∧
    (List.replicate 101 0x55#8).length = 101 ∧ (List.replicate 359 0x55#8).length = 359 ∧
    ∀ i, i ≤ 100 → ¬ markerAt 0x01#8 (List.replicate 101 0x55#8) i := by
  refine ⟨rfl, ⟨inPayload_inv 6 (.inr rfl), rfl⟩, ?_⟩
  unfold markerAt
  decide +kernel

/-- Each check: RSV; OP; SEQ of FB_CLEAR, and of SYNC_BYTE; OVF; and none of them. -/
theorem witness_CommandChecksAreMadeInOrder :
    0x8000#16 ≠ 0#16 ∧
    0x00#8 ∉ [0x01#8, 0x02#8, 0x10#8, 0x20#8, 0x21#8, 0x22#8, 0x30#8, 0x31#8, 0x32#8] ∧
    (0x20#8 ∈ [0x20#8, 0x21#8, 0x22#8] ∧ counting.sync ∈ [SyncState.hunt, .count, .payload]) ∧
    synced.sync ∉ [SyncState.hunt, .count, .payload] ∧
    (full.sync ∉ [SyncState.hunt, .count, .payload] ∧ full.fbLen = 260) ∧
    (0x31#8 ∈ [0x01#8, 0x02#8, 0x10#8, 0x20#8, 0x21#8, 0x22#8, 0x30#8, 0x31#8, 0x32#8] ∧
      ¬(0x31#8 ∈ [0x20#8, 0x21#8, 0x22#8]) ∧ ¬(counting.sync ∉ [SyncState.hunt, .count, .payload]) ∧
      ¬(0x31#8 = 0x21#8)) := by
  refine ⟨by decide, by decide, by decide, by decide, ⟨by decide, rfl⟩, by decide⟩

theorem witness_SeqAndOvfHaveExactlyTheirCauses :
    exec .fbClear counting = .next { counting with errSeq := true } ∧
    counting.sync ∈ [SyncState.hunt, .count, .payload] ∧
    exec (.fbPush 0x00#8) full = .next { full with errOvf := true } ∧
    full.sync ∉ [SyncState.hunt, .count, .payload] ∧ full.fbLen = 260 ∧
    synced.sync ∈ [SyncState.idle, .done, .fail] := ⟨rfl, by decide, rfl, by decide, rfl, by decide⟩

/-- A flag cleared, a flag raised, and a read, which writes no flag; then a state outside a search. -/
theorem witness_FlagsHaveOnlyTheirWriters :
    step (withAccess (.write .word 0x004 0x2#32) [] { State.reset with errSeq := true }) = .next State.reset ∧
    step (withAccess (.write .word 0x000 0x00000022#32) [] counting) = .next { counting with errSeq := true } ∧
    (∃ t, step (withAccess (.read .word 0x028) [] synced) = .next t ∧
      ¬∃ v, Access.read .word 0x028 = .write .word 0x000 v ∧ decode v = .ok .decode) ∧
    synced.sync ∉ [SyncState.hunt, .count, .payload] :=
  ⟨rfl, rfl, ⟨_, rfl, fun ⟨_, h, _⟩ => by cases h⟩, by decide⟩

theorem witness_CommandsLeaveOtherRegistersAlone :
    exec .crcInit synced = .next synced ∧ Instr.crcInit ≠ .encode ∧ Instr.crcInit ≠ .decode ∧
    Instr.crcInit ≠ .syncStart ∧ (∀ b, Instr.crcInit ≠ .syncByte b) ∧ Instr.crcInit ≠ .fbClear ∧
    (∀ b, Instr.crcInit ≠ .fbPush b) :=
  ⟨rfl, by decide, by decide, by decide, fun _ h => (by cases h), by decide, fun _ h => (by cases h)⟩

/-- A push with another byte in view, and a payload byte. -/
theorem witness_FbKeepsEveryOtherByte :
    (∃ t, exec (.fbPush 0x55#8) synced = .next t) ∧ 0 ≠ synced.fbLen ∧
    (∃ t, exec (.syncByte 0x9B#8) (inPayload 6) = .next t) ∧ 0 ∉ syncStores 0x9B#8 (inPayload 6) :=
  ⟨⟨_, rfl⟩, by decide, ⟨_, rfl⟩, by decide⟩

/-- A command that is no DECODE; a DECODE that fails; one that succeeds, at the first entry it leaves. -/
theorem witness_ValuesKeepsEveryOtherEntry :
    (exec .crcInit synced = .next synced ∧ Instr.crcInit ≠ .decode) ∧
    (exec .decode State.reset = .next { State.reset with result := .short } ∧ DecResult.short ≠ .ok) ∧
    (after (exec .decode { synced with reqCount := 1#16 })).map State.vcount = some 1 :=
  ⟨⟨rfl, by decide⟩, ⟨rfl, by decide⟩, by decide +kernel⟩

theorem witness_StepKeepsTheInvariant :
    BlockInv (inPayload 6) ∧ BlockInv { inPayload 6 with inputs := [.reset] } ∧
    step { inPayload 6 with inputs := [.reset] } = .next State.reset :=
  ⟨inPayload_inv 6 (.inr rfl), { inPayload_inv 6 (.inr rfl) with }, rfl⟩

theorem witness_InvariantStatesStepOn :
    BlockInv (inPayload 6) ∧ (HostEvent.access (.write .word 0x000 0x00009B31#32)).wf = true :=
  ⟨inPayload_inv 6 (.inr rfl), by decide⟩

/-- P3's first write, run from reset. -/
theorem witness_ReachableStatesMeetR45 :
    Host.Core.run Sys2Proof.core 1
        ({ State.reset with inputs := [.access (.write .word 0x00C 0x00000001#32)] } : State) =
      .next ({ State.reset with reqAddr := 0x01#8 } : State) := rfl

theorem witness_ChannelsShareNoState :
    Platform.stepAt ⟨synced, [{ State.reset with inputs := [.reset] }]⟩ 1 = .next ⟨synced, [State.reset]⟩ ∧
    (⟨State.reset, [{ State.reset with inputs := [.reset] }]⟩ : Platform).channels[1]? =
      (⟨synced, [{ State.reset with inputs := [.reset] }]⟩ : Platform).channels[1]? := ⟨rfl, rfl⟩

end Sys2Proof.Tests
end

section
/-! SUPPORT. Every way a command can answer, as two relations: its next states and its faults. -/

namespace Sys2Proof.Machine

/-- The next states of the commands: a constructor for each outcome, with its guard. -/
inductive ExecNext : Instr → State → State → Prop where
  | crcInit (s : State) : ExecNext .crcInit s { s with acc := Config.crcSeed }
  | crcByte (b : Byte) (s : State) : ExecNext (.crcByte b) s { s with acc := crcStep s.acc b }
  | encode (s : State) : ExecNext .encode s { s with tx := requestFrame s }
  /-- A frame command in a search (60_exceptions.md R184). -/
  | seqActive (i : Instr) (s : State) (hi : i = .fbClear ∨ (∃ b, i = .fbPush b) ∨ i = .decode)
      (ha : s.sync.active = true) : ExecNext i s { s with errSeq := true }
  /-- A SYNC_BYTE outside a search (42_stream_sync.md R161). -/
  | seqIdle (b : Byte) (s : State) (ha : s.sync.active = false) :
      ExecNext (.syncByte b) s { s with errSeq := true }
  /-- An FB_PUSH with FB full (60_exceptions.md R185). -/
  | ovf (b : Byte) (s : State) (ha : s.sync.active = false) (hl : s.fbLen = 260) :
      ExecNext (.fbPush b) s { s with errOvf := true }
  | fbClear (s : State) (ha : s.sync.active = false) : ExecNext .fbClear s { s with fbLen := 0, sync := .idle }
  | fbPush (b : Byte) (s : State) (ha : s.sync.active = false) (hl : s.fbLen < 260) :
      ExecNext (.fbPush b) s { s with fb := s.fb.write s.fbLen b, fbLen := s.fbLen + 1, sync := .idle }
  | decode (s : State) (f : List Byte) (ha : s.sync.active = false) (hf : s.fb.readSpan 0 s.fbLen = some f) :
      ExecNext .decode s (recordDecode (decodeResponse f s.reqCount) s)
  | syncStart (s : State) : ExecNext .syncStart s { s with
      saddr := s.reqAddr, sync := .hunt, huntLen := 0, last := 0x00#8, noise := 0, remain := 0, fbLen := 0 }
  /-- The marker is complete (42_stream_sync.md R155). -/
  | marker (b : Byte) (s : State) (hs : s.sync = .hunt) (hm : markerCompleted b s = true) :
      ExecNext (.syncByte b) s { s with
        noise := s.huntLen + 1 - 2, huntLen := s.huntLen + 1, last := b
        fb := (s.fb.write 0 s.saddr).write 1 0x03#8, fbLen := 2, sync := .count }
  /-- The search's cap is exceeded (42_stream_sync.md R156). -/
  | huntFails (b : Byte) (s : State) (hs : s.sync = .hunt) (hm : markerCompleted b s = false)
      (hl : 100 < s.huntLen + 1) :
      ExecNext (.syncByte b) s { s with huntLen := s.huntLen + 1, last := b, sync := .fail }
  /-- The search goes on (42_stream_sync.md R157). -/
  | huntGoesOn (b : Byte) (s : State) (hs : s.sync = .hunt) (hm : markerCompleted b s = false)
      (hl : s.huntLen + 1 ≤ 100) : ExecNext (.syncByte b) s { s with huntLen := s.huntLen + 1, last := b }
  | byteCount (b : Byte) (s : State) (hs : s.sync = .count) : ExecNext (.syncByte b) s { s with
      fb := s.fb.write 2 b, fbLen := 3, remain := b.toNat + 2, sync := .payload }
  | payload (b : Byte) (s : State) (hs : s.sync = .payload) (hr : s.remain ≠ 0) (hl : s.fbLen < 260) :
      ExecNext (.syncByte b) s { s with
        fb := s.fb.write s.fbLen b, fbLen := s.fbLen + 1, remain := s.remain - 1
        sync := if s.remain - 1 = 0 then .done else .payload }
  | abort (s : State) (ha : s.sync.active = true) : ExecNext .syncAbort s { s with sync := .fail }
  /-- A SYNC_ABORT outside a search has no effect (42_stream_sync.md R165). -/
  | abortIdle (s : State) (ha : s.sync.active = false) : ExecNext .syncAbort s s

/-- The faults of the commands: where FB has no such byte, where a byte to decode is unwritten, and where REMAIN cannot
be counted down (log 9). -/
inductive ExecFault : Instr → State → Fault → Prop where
  | pushIndex (b : Byte) (s : State) (ha : s.sync.active = false) (hl : 260 < s.fbLen) :
      ExecFault (.fbPush b) s .fbIndex
  | payloadIndex (b : Byte) (s : State) (hs : s.sync = .payload) (hr : s.remain ≠ 0) (hl : 260 ≤ s.fbLen) :
      ExecFault (.syncByte b) s .fbIndex
  | unwritten (s : State) (ha : s.sync.active = false) (hf : s.fb.readSpan 0 s.fbLen = none) :
      ExecFault .decode s .fbUnwritten
  | remainZero (b : Byte) (s : State) (hs : s.sync = .payload) (hr : s.remain = 0) :
      ExecFault (.syncByte b) s .remainZero

/-- A byte in HUNT gives one of the relation's three next states. -/
theorem execNext_huntByte (b : Byte) (s : State) (hs : s.sync = .hunt) :
    ExecNext (.syncByte b) s (huntByte b s) := by
  rcases huntByte_cases b s with ⟨hm, he⟩ | ⟨hm, hl, he⟩ | ⟨hm, hl, he⟩ <;>
    rw [← markerCompleted_iff] at hm <;> rw [he]
  · exact .marker b s hs hm
  · exact .huntFails b s hs (by simpa using hm) hl
  · exact .huntGoesOn b s hs (by simpa using hm) hl

/-- All that a command can answer: one of the next states, or one of the faults; never a refusal. -/
theorem exec_cases (i : Instr) (s : State) :
    (∃ t, exec i s = .next t ∧ ExecNext i s t) ∨ (∃ r, exec i s = .fault r ∧ ExecFault i s r) := by
  cases i with
  | crcInit => exact .inl ⟨_, rfl, .crcInit s⟩
  | crcByte b => exact .inl ⟨_, rfl, .crcByte b s⟩
  | encode => exact .inl ⟨_, rfl, .encode s⟩
  | fbClear =>
    rcases execFbClear_cases s with ⟨ha, he⟩ | ⟨ha, he⟩
    · exact .inl ⟨_, he, .seqActive _ s (.inl rfl) ha⟩
    · exact .inl ⟨_, he, .fbClear s ha⟩
  | fbPush b =>
    rcases execFbPush_cases b s with ⟨ha, he⟩ | ⟨ha, hl, he⟩ | ⟨ha, hl, he⟩ | ⟨ha, hl, he⟩
    · exact .inl ⟨_, he, .seqActive _ s (.inr (.inl ⟨b, rfl⟩)) ha⟩
    · exact .inl ⟨_, he, .ovf b s ha hl⟩
    · exact .inl ⟨_, he, .fbPush b s ha hl⟩
    · exact .inr ⟨_, he, .pushIndex b s ha hl⟩
  | decode =>
    rcases execDecode_cases s with ⟨ha, he⟩ | ⟨ha, f, hf, he⟩ | ⟨ha, hf, he⟩
    · exact .inl ⟨_, he, .seqActive _ s (.inr (.inr rfl)) ha⟩
    · exact .inl ⟨_, he, .decode s f ha hf⟩
    · exact .inr ⟨_, he, .unwritten s ha hf⟩
  | syncStart => exact .inl ⟨_, rfl, .syncStart s⟩
  | syncByte b =>
    rcases execSyncByte_cases b s with ⟨hs, he⟩ | ⟨hs, he⟩ | ⟨hs, he⟩ | ⟨hs, he⟩
    · exact .inl ⟨_, he, execNext_huntByte b s hs⟩
    · exact .inl ⟨_, he, .byteCount b s hs⟩
    · rcases payloadByte_cases b s with ⟨hr, hp⟩ | ⟨hr, hl, hp⟩ | ⟨hr, hl, hp⟩
      · exact .inr ⟨_, he.trans hp, .remainZero b s hs hr⟩
      · exact .inl ⟨_, he.trans hp, .payload b s hs hr hl⟩
      · exact .inr ⟨_, he.trans hp, .payloadIndex b s hs hr hl⟩
    · exact .inl ⟨_, he, .seqIdle b s (by rcases hs with hs | hs | hs <;> rw [hs] <;> rfl)⟩
  | syncAbort =>
    rcases execSyncAbort_cases s with ⟨ha, he⟩ | ⟨ha, he⟩
    · exact .inl ⟨_, he, .abort s ha⟩
    · exact .inl ⟨_, he, .abortIdle s ha⟩

/-- The relation of the next states says exactly what a command that does not stop answers. -/
theorem exec_eq_next_iff {i : Instr} {s t : State} : exec i s = .next t ↔ ExecNext i s t := by
  constructor
  · intro h
    rcases exec_cases i s with ⟨u, he, hn⟩ | ⟨r, he, -⟩ <;> rw [he] at h <;> cases h
    exact hn
  · intro h
    cases h with
    | crcInit | crcByte | encode | syncStart => rfl
    | seqActive _ _ hi ha =>
      rcases hi with rfl | ⟨b, rfl⟩ | rfl <;> simp [exec, execFbClear, execFbPush, execDecode, ha]
    | seqIdle b _ ha => cases hs : s.sync <;> simp [exec, execSyncByte, hs, SyncState.active] at ha ⊢
    | ovf b _ ha hl => simp [exec, execFbPush, ha, hl]
    | fbClear _ ha => simp [exec, execFbClear, ha]
    | fbPush b _ ha hl => simp [exec, execFbPush, appendFb, ha, hl, Nat.ne_of_lt hl]
    | decode _ f ha hf => simp [exec, execDecode, frameInFb, ha, hf]
    | marker b _ hs hm => simp [exec, execSyncByte, huntByte, hs, hm]
    | huntFails b _ hs hm hl =>
      have h : 100 ≤ s.huntLen := by omega
      simp [exec, execSyncByte, huntByte, hs, hm, h]
    | huntGoesOn b _ hs hm hl =>
      have h : ¬100 ≤ s.huntLen := by omega
      simp [exec, execSyncByte, huntByte, hs, hm, h]
    | byteCount b _ hs => simp [exec, execSyncByte, countByte, hs]
    | payload b _ hs hr hl => simp [exec, execSyncByte, payloadByte, appendFb, hs, hr, hl]
    | abort _ ha | abortIdle _ ha => simp [exec, execSyncAbort, ha]

/-- The relation of the faults says exactly where a command stops. -/
theorem exec_eq_fault_iff {i : Instr} {s : State} {r : Fault} : exec i s = .fault r ↔ ExecFault i s r := by
  constructor
  · intro h
    rcases exec_cases i s with ⟨t, he, -⟩ | ⟨q, he, hf⟩ <;> rw [he] at h <;> cases h
    exact hf
  · intro h
    cases h with
    | pushIndex b _ ha hl =>
      have hn : s.fbLen ≠ 260 := by omega
      have hm : ¬s.fbLen < 260 := by omega
      simp [exec, execFbPush, appendFb, ha, hn, hm]
    | payloadIndex b _ hs hr hl =>
      have hm : ¬s.fbLen < 260 := by omega
      simp [exec, execSyncByte, payloadByte, appendFb, hs, hr, hm]
    | unwritten _ ha hf => simp [exec, execDecode, frameInFb, ha, hf]
    | remainZero b _ hs hr => simp [exec, execSyncByte, payloadByte, hs, hr]

end Sys2Proof.Machine
end

section
/-! SUPPORT. That the invariant holds at reset and that every command, access and reset keeps it, one lemma for each way
the state can change. -/

namespace Sys2Proof.Machine

/-! ### Facts about the RAMs and the decoded values -/

/-- If the first `n` entries are written, then a write to entry `n` makes the first `n + 1` written. -/
theorem Memory.written_write_append {w : Nat} {m : Memory w} {n : Nat} (v : BitVec w)
    (h : ∀ i, i < n → (Memory.read m i).isSome) :
    ∀ i, i < n + 1 → (Memory.read (Memory.write m n v) i).isSome := by
  intro i hi
  rw [Memory.read_write]
  split
  · rfl
  · exact h i (by omega)

/-- A list written from entry 0 on leaves none of its entries unwritten. -/
theorem Memory.written_writeList_zero {w : Nat} (m : Memory w) (vs : List (BitVec w)) :
    ∀ i, i < vs.length → (Memory.read (Memory.writeList m 0 vs) i).isSome := by
  intro i hi
  simp [Memory.read_writeList, hi]

theorem length_bePairs_le (k : Nat) (l : List Byte) : (bePairs k l).length ≤ k := by
  induction k, l using bePairs.induct with
  | case1 k hi lo rest ih => simpa [bePairs] using ih
  | case2 k l h => simp [bePairs]

/-- A decoded frame holds at most 127 values, since its byte count is at most 255 (41_frame_codec.md R133). -/
theorem decodeResponse_values_length {f : List Byte} {c : Half} {vals : List Half} {warn : Bool}
    (h : decodeResponse f c = .ok vals warn) : vals.length ≤ 127 := by
  unfold decodeResponse at h
  split at h
  · rename_i fc bc rest
    split_ifs at h
    obtain ⟨rfl, -⟩ := FrameResult.ok.inj h
    have hbc := bc.isLt
    calc (bePairs _ rest).length ≤ extractCount bc _ := length_bePairs_le _ _
      _ ≤ 127 := by unfold extractCount; omega
  · cases h

/-! ### Reset -/

theorem blockInv_reset : BlockInv State.reset where
  fbLen_le := by decide
  fb_written := by simp [State.reset]
  vcount_le := by decide
  values_written := by simp [State.reset]
  in_count := by decide
  in_payload := by simp [State.reset]
  in_done := by simp [State.reset]
  in_hunt := by decide
  warn_only_ok := by decide
  code_only_exc := by decide
  fb_wf := by decide
  values_wf := by decide
  payload_marker := by decide
  huntLen_le := by decide
  noise_le := by decide
  remain_le := by decide

/-! ### Commands that reach a state outside a search -/

/-- FB cut to any length it has and the synchronizer at IDLE or FAIL: nothing is asked of FB but that it is written. -/
theorem BlockInv.after_leaveSearch {s : State} (h : BlockInv s) {x : SyncState} (hx : x = .idle ∨ x = .fail) {n : Nat}
    (hn : n ≤ s.fbLen) : BlockInv { s with fbLen := n, sync := x } :=
  { h with
    fbLen_le := Nat.le_trans hn h.fbLen_le
    fb_written := fun i hi => h.fb_written i (Nat.lt_of_lt_of_le hi hn)
    in_count := by rcases hx with rfl | rfl <;> simp
    in_payload := by rcases hx with rfl | rfl <;> simp
    in_done := by rcases hx with rfl | rfl <;> simp
    in_hunt := by rcases hx with rfl | rfl <;> simp
    payload_marker := by rcases hx with rfl | rfl <;> simp }

theorem BlockInv.after_fbPush {s : State} (h : BlockInv s) (b : Byte) (hl : s.fbLen < 260) :
    BlockInv { s with fb := s.fb.write s.fbLen b, fbLen := s.fbLen + 1, sync := .idle } :=
  { h with
    fbLen_le := hl
    fb_written := Memory.written_write_append b h.fb_written
    in_count := by simp
    in_payload := by simp
    in_done := by simp
    in_hunt := by simp
    fb_wf := Memory.wf_write b hl h.fb_wf
    payload_marker := by simp }

/-- DECODE writes its four fields together, so that items 3 and 8 of R45 hold of each outcome. -/
theorem BlockInv.after_recordDecode {s : State} (h : BlockInv s) (f : List Byte) :
    BlockInv (recordDecode (decodeResponse f s.reqCount) s) := by
  cases hd : decodeResponse f s.reqCount with
  | ok vals warn =>
    have hv : vals.length ≤ 127 := decodeResponse_values_length hd
    exact { h with
      vcount_le := hv
      values_written := Memory.written_writeList_zero s.values vals
      warn_only_ok := fun hr => absurd rfl hr
      code_only_exc := fun _ => rfl
      values_wf := Memory.wf_writeList vals (by simpa using hv) h.values_wf }
  | funcExc code =>
    exact { h with
      vcount_le := Nat.zero_le _
      values_written := fun i hi => absurd hi (Nat.not_lt_zero i)
      warn_only_ok := fun _ => rfl
      code_only_exc := fun hr => absurd rfl hr }
  | short | crcMismatch =>
    exact { h with
      vcount_le := Nat.zero_le _
      values_written := fun i hi => absurd hi (Nat.not_lt_zero i)
      warn_only_ok := fun _ => rfl
      code_only_exc := fun _ => rfl }

/-! ### The search -/

theorem BlockInv.after_syncStart {s : State} (h : BlockInv s) : BlockInv { s with
    saddr := s.reqAddr, sync := .hunt, huntLen := 0, last := 0x00#8, noise := 0, remain := 0, fbLen := 0 } :=
  { h with
    fbLen_le := Nat.zero_le _
    fb_written := fun i hi => absurd hi (Nat.not_lt_zero i)
    in_count := by simp
    in_payload := by simp
    in_done := by simp
    in_hunt := by simp
    payload_marker := by simp
    huntLen_le := Nat.zero_le _
    noise_le := Nat.zero_le _
    remain_le := Nat.zero_le _ }

/-- The marker's two bytes make FB written up to 2, and item 7 of R45 bounds HUNTLEN and NOISE. -/
theorem BlockInv.after_marker {s : State} (h : BlockInv s) (b : Byte) (hs : s.sync = .hunt) : BlockInv { s with
    noise := s.huntLen + 1 - 2, huntLen := s.huntLen + 1, last := b
    fb := (s.fb.write 0 s.saddr).write 1 0x03#8, fbLen := 2, sync := .count } := by
  obtain ⟨-, hunt_le⟩ := h.in_hunt hs
  have h0 : ((s.fb.write 0 s.saddr).write 1 0x03#8).read 0 = some s.saddr := by simp [Memory.read_write]
  have h1 : ((s.fb.write 0 s.saddr).write 1 0x03#8).read 1 = some 0x03#8 := by simp
  exact { h with
    fbLen_le := by simp
    fb_written := fun i hi => by
      obtain rfl | rfl : i = 0 ∨ i = 1 := by simp only at hi; omega
      · simp [h0]
      · simp
    in_count := fun _ => ⟨rfl, h0, h1⟩
    in_payload := by simp
    in_done := by simp
    in_hunt := by simp
    fb_wf := Memory.wf_write _ (by decide) (Memory.wf_write _ (by decide) h.fb_wf)
    payload_marker := by simp
    huntLen_le := by simp only; omega
    noise_le := by simp only; omega }

/-- A byte that does not end the search: HUNTLEN stays within item 7 of R45. -/
theorem BlockInv.after_huntGoesOn {s : State} (h : BlockInv s) (b : Byte) (hs : s.sync = .hunt)
    (hl : s.huntLen + 1 ≤ 100) : BlockInv { s with huntLen := s.huntLen + 1, last := b } :=
  { h with
    in_hunt := fun _ => ⟨(h.in_hunt hs).1, hl⟩
    huntLen_le := Nat.le_succ_of_le hl }

/-- The byte above the cap: HUNTLEN is 101 and the search has failed. -/
theorem BlockInv.after_huntFails {s : State} (h : BlockInv s) (b : Byte) (hs : s.sync = .hunt) :
    BlockInv { s with huntLen := s.huntLen + 1, last := b, sync := .fail } :=
  { h.after_leaveSearch (.inr rfl) (Nat.le_refl _) with
    in_hunt := by simp
    huntLen_le := Nat.succ_le_succ (h.in_hunt hs).2 }

/-- The byte count fixes how many bytes PAYLOAD waits for; item 4 of R45 gives PAYLOAD its marker. -/
theorem BlockInv.after_byteCount {s : State} (h : BlockInv s) (b : Byte) (hs : s.sync = .count) : BlockInv { s with
    fb := s.fb.write 2 b, fbLen := 3, remain := b.toNat + 2, sync := .payload } := by
  obtain ⟨hlen, h0, h1⟩ := h.in_count hs
  have hb := b.isLt
  exact { h with
    fbLen_le := by simp
    fb_written := Memory.written_write_append b (hlen ▸ h.fb_written)
    in_count := by simp
    in_payload := fun _ => ⟨by simp, b, by simp, by simp only; omega⟩
    in_done := by simp
    in_hunt := by simp
    fb_wf := Memory.wf_write b (by decide) h.fb_wf
    payload_marker := fun _ =>
      ⟨by simp, by simpa [Memory.read_write] using h0, by simpa [Memory.read_write] using h1⟩
    remain_le := by simp only; omega }

/-- A payload byte goes behind the first three, so the marker and the byte count stay, and FB_LEN + REMAIN too. -/
theorem BlockInv.after_payload {s : State} (h : BlockInv s) (b : Byte) (hs : s.sync = .payload) (hr : s.remain ≠ 0)
    (hl : s.fbLen < 260) : BlockInv { s with
      fb := s.fb.write s.fbLen b, fbLen := s.fbLen + 1, remain := s.remain - 1
      sync := if s.remain - 1 = 0 then .done else .payload } := by
  obtain ⟨hlen, bc, h2, hsum⟩ := h.in_payload hs
  obtain ⟨-, h0, h1⟩ := h.payload_marker hs
  have keep : ∀ i, i < 3 → (s.fb.write s.fbLen b).read i = s.fb.read i := fun i hi =>
    Memory.read_write_other _ _ (by omega)
  rw [← keep 0 (by decide)] at h0
  rw [← keep 1 (by decide)] at h1
  rw [← keep 2 (by decide)] at h2
  have hrem := h.remain_le
  exact { h with
    fbLen_le := hl
    fb_written := Memory.written_write_append b h.fb_written
    in_count := by simp only; split <;> simp
    in_payload := fun _ => ⟨by simp only; omega, bc, h2, by simp only; omega⟩
    in_done := by
      simp only
      split
      · exact fun _ => ⟨⟨bc, h2, by omega⟩, h0, h1⟩
      · simp
    in_hunt := by simp only; split <;> simp
    fb_wf := Memory.wf_write b hl h.fb_wf
    payload_marker := by
      simp only
      split
      · simp
      · exact fun _ => ⟨by omega, h0, h1⟩
    remain_le := by simp only; omega }

/-! ### Commands, accesses, steps -/

/-- Every command keeps the invariant. -/
theorem BlockInv.after_execNext {i : Instr} {s t : State} (h : BlockInv s) (he : ExecNext i s t) : BlockInv t := by
  cases he with
  | crcInit | crcByte | encode | seqActive | seqIdle | ovf => exact { h with }
  | fbClear => exact h.after_leaveSearch (.inl rfl) (Nat.zero_le _)
  | fbPush b _ _ hl => exact h.after_fbPush b hl
  | decode _ f => exact h.after_recordDecode f
  | syncStart => exact h.after_syncStart
  | marker b _ hs => exact h.after_marker b hs
  | huntFails b _ hs => exact h.after_huntFails b hs
  | huntGoesOn b _ hs _ hl => exact h.after_huntGoesOn b hs hl
  | byteCount b _ hs => exact h.after_byteCount b hs
  | payload b _ hs hr hl => exact h.after_payload b hs hr hl
  | abort => exact h.after_leaveSearch (.inr rfl) (Nat.le_refl _)
  | abortIdle => exact h

/-- A host write to a register other than CMD touches no field of the invariant. -/
theorem BlockInv.after_writeReg {s : State} (h : BlockInv s) (r : Reg) (v : Word) : BlockInv (writeReg r v s) := by
  cases r <;> exact { h with }

/-- Every access that has a next state keeps the invariant. -/
theorem BlockInv.after_performAccess {a : Access} {s t : State} (h : BlockInv s) (hp : performAccess a s = .next t) :
    BlockInv t := by
  rcases performAccess_cases a s t hp with
    ⟨off, -, rfl⟩ | ⟨off, v, i, -, -, -, he⟩ | ⟨off, v, r, -, -, -, rfl⟩ | ⟨off, v, -, -, rfl⟩
  · exact { h with }
  · exact h.after_execNext (exec_eq_next_iff.1 he)
  · exact { h with }
  · exact h.after_writeReg _ v

/-- Every event of the host that has a next state keeps the invariant. -/
theorem BlockInv.after_performEvent {e : HostEvent} {s t : State} (h : BlockInv s) (hp : performEvent e s = .next t) :
    BlockInv t := by
  cases e with
  | access a => exact h.after_performAccess hp
  | reset => cases hp; exact { blockInv_reset with }

theorem BlockInv.after_takeEvent {s : State} (h : BlockInv s) (rest : List HostEvent) : BlockInv (takeEvent rest s) :=
  { h with }

/-- Settles O56: the script is no field of the invariant. -/
theorem resetMeetsTheInvariant : Obligations.ResetMeetsTheInvariant :=
  fun _ => { blockInv_reset with }

/-- Settles O57: a step is one event of the host, and each kind of event keeps the invariant. -/
theorem stepKeepsTheInvariant : Obligations.StepKeepsTheInvariant := by
  intro s t h hstep
  cases hi : s.inputs with
  | nil => rw [step_nil s hi] at hstep; cases hstep
  | cons e rest =>
    rw [step_cons s e rest hi] at hstep
    exact (h.after_takeEvent rest).after_performEvent hstep

end Sys2Proof.Machine
end

section
/-! SUPPORT. Where commands stop, that no state of the invariant reaches such a place, and what follows for runs. -/

namespace Sys2Proof.Machine

/-- A span cannot be read exactly if one of its entries is unwritten. -/
theorem Memory.readSpan_zero_eq_none_iff {w : Nat} (m : Memory w) (n : Nat) :
    Memory.readSpan m 0 n = none ↔ ∃ j, j < n ∧ Memory.read m j = none := by
  constructor
  · intro h
    by_contra hc
    push Not at hc
    obtain ⟨f, hf⟩ := Memory.readSpan_of_written m n 0 fun i hi => by
      rw [Nat.zero_add]
      exact Option.isSome_iff_ne_none.2 (hc i hi)
    rw [hf] at h
    cases h
  · rintro ⟨j, hj, hr⟩
    by_contra hc
    obtain ⟨f, hf⟩ := Option.ne_none_iff_exists'.1 hc
    obtain ⟨hlen, hread⟩ := (Memory.readSpan_eq_some m n 0 f).1 hf
    have hsome : f[j]? = some f[j] := List.getElem?_eq_getElem (by omega)
    rw [← hread j hj, Nat.zero_add, hr] at hsome
    cases hsome

/-- No command faults in a state of the invariant: items 1 and 2 of R45, and in PAYLOAD a byte to come within FB. -/
theorem BlockInv.not_execFault {i : Instr} {s : State} {r : Fault} (h : BlockInv s) : ¬ExecFault i s r := by
  intro hf
  cases hf with
  | pushIndex b _ _ hl => exact absurd h.fbLen_le (Nat.not_le.2 hl)
  | payloadIndex b _ hs hr hl =>
    obtain ⟨-, bc, -, hsum⟩ := h.in_payload hs
    have hbc := bc.isLt
    omega
  | unwritten _ _ hf =>
    obtain ⟨j, hj, hr⟩ := (Memory.readSpan_zero_eq_none_iff s.fb s.fbLen).1 hf
    have hw := h.fb_written j hj
    rw [hr] at hw
    cases hw
  | remainZero b _ hs hr =>
    obtain ⟨hpos, -⟩ := h.payload_marker hs
    omega

/-- Every command has a next state from a state of the invariant. -/
theorem BlockInv.exec_eq_next {s : State} (h : BlockInv s) (i : Instr) : ∃ t, exec i s = .next t := by
  rcases exec_cases i s with ⟨t, he, -⟩ | ⟨r, -, hf⟩
  · exact ⟨t, he⟩
  · exact absurd hf h.not_execFault

/-- Every word written to CMD has a next state: a command's, or the one with ERR.ILL set. -/
theorem BlockInv.runCommand_eq_next {s : State} (h : BlockInv s) (v : Word) : ∃ t, runCommand v s = .next t := by
  cases hd : decode v with
  | ok i => rw [runCommand_of_decode s hd]; exact h.exec_eq_next i
  | error r => exact ⟨raiseCmdError .ill s, by simp [runCommand, hd]⟩

/-- The block performs every event it does not refuse. -/
theorem BlockInv.performEvent_eq_next {s : State} (h : BlockInv s) {e : HostEvent} (he : e.wf = true) :
    ∃ t, performEvent e s = .next t := by
  cases e with
  | reset => exact ⟨applyReset s, rfl⟩
  | access a =>
    change ∃ t, performAccess a s = .next t
    rcases Access.wf_cases a he with ⟨off, rfl, h1, h2⟩ | ⟨off, v, rfl, h1, h2⟩
    · exact ⟨memRead off s, performAccess_read off s h1 h2⟩
    · rw [performAccess_write off v s h1 h2]
      by_cases hc : regAt off = .cmd
      · obtain rfl := (regAt_eq_cmd_iff off).1 hc
        exact h.runCommand_eq_next v
      · exact ⟨writeReg (regAt off) v s, memWrite_of_ne_cmd off v s hc⟩

/-- Settles O58: the event does not stop, and what it leads to meets the invariant. -/
theorem invariantStatesStepOn : Obligations.InvariantStatesStepOn := by
  intro s e rest h he
  have h' : BlockInv (takeEvent rest { s with inputs := e :: rest }) := { h with }
  obtain ⟨t, ht⟩ := h'.performEvent_eq_next he
  exact ⟨t, ht, h'.after_performEvent ht⟩

/-- A run of `k + 1` steps is a step and a run of `k`. -/
theorem run_succ_eq_next {k : Nat} {s t : State} (h : Host.Core.run core (k + 1) s = .next t) :
    ∃ u, step s = .next u ∧ Host.Core.run core k u = .next t := by
  simp only [Host.Core.run] at h
  split at h
  · rename_i u hu
    exact ⟨u, hu, h⟩
  · cases h
  · cases h

/-- A run of steps keeps the invariant. -/
theorem BlockInv.after_run {k : Nat} {s t : State} (h : BlockInv s) (hr : Host.Core.run core k s = .next t) :
    BlockInv t := by
  induction k generalizing s with
  | zero => cases hr; exact h
  | succ k ih =>
    obtain ⟨u, hu, hr'⟩ := run_succ_eq_next hr
    exact ih (stepKeepsTheInvariant s u h hu) hr'

/-- Settles O59: the invariant holds at reset and every step keeps it. -/
theorem reachableStatesMeetR45 : Obligations.ReachableStatesMeetR45 :=
  fun script _ _ hr => ((resetMeetsTheInvariant script).after_run hr).toR45

/-- Settles O52, by the relation of the commands' faults. -/
theorem commandsFaultExactlyHere : Obligations.CommandsFaultExactlyHere := by
  intro i s
  refine ⟨fun r hr => ?_, fun r => ?_⟩
  · rcases exec_cases i s with ⟨t, he, -⟩ | ⟨q, he, -⟩ <;> rw [he] at hr <;> cases hr
  · rw [exec_eq_fault_iff, ← SyncState.not_active_iff]
    constructor
    · intro h
      cases h with
      | pushIndex b _ ha hl => exact .inl ⟨rfl, .inl ⟨⟨b, rfl⟩, ha, hl⟩⟩
      | payloadIndex b _ hs hr hl => exact .inl ⟨rfl, .inr ⟨⟨b, rfl⟩, hs, hr, hl⟩⟩
      | unwritten _ ha hf =>
        exact .inr (.inl ⟨rfl, rfl, ha, (Memory.readSpan_zero_eq_none_iff s.fb s.fbLen).1 hf⟩)
      | remainZero b _ hs hr => exact .inr (.inr ⟨rfl, ⟨b, rfl⟩, hs, hr⟩)
    · rintro (⟨rfl, ⟨⟨b, rfl⟩, ha, hl⟩ | ⟨⟨b, rfl⟩, hs, hr, hl⟩⟩ | ⟨rfl, rfl, ha, hf⟩ |
        ⟨rfl, ⟨b, rfl⟩, hs, hr⟩)
      · exact .pushIndex b s ha hl
      · exact .payloadIndex b s hs hr hl
      · exact .unwritten s ha ((Memory.readSpan_zero_eq_none_iff s.fb s.fbLen).2 hf)
      · exact .remainZero b s hs hr

end Sys2Proof.Machine
end

section
/-! SUPPORT. The channels of a platform (10_state.md R47). -/

namespace Sys2Proof.Machine

/-- What a channel's step answers depends on that channel alone. -/
theorem Platform.stepAt_of_step {p : Platform} {c : Nat} {s t : State} (hs : p.channels[c]? = some s)
    (ht : step s = .next t) : p.stepAt c = .next (p.setChannel c t) := by
  simp [Platform.stepAt, hs, ht]

/-- A channel holds the state it was given. -/
theorem Platform.getElem?_setChannel_same {p : Platform} {c : Nat} {s : State} (hs : p.channels[c]? = some s)
    (t : State) : (p.setChannel c t).channels[c]? = some t := by
  have hc : c < p.channels.length := (List.getElem?_eq_some_iff.1 hs).1
  simp [hc]

/-- Settles O60: a platform's step replaces one channel by that channel's own next state. -/
theorem channelsShareNoState : Obligations.ChannelsShareNoState := by
  intro p p' q c h
  obtain ⟨s, t, hs, ht, rfl⟩ := Platform.stepAt_eq_next h
  have ht' := Platform.getElem?_setChannel_same hs t
  refine ⟨⟨p.nChannels_setChannel c t, p.one_le_nChannels⟩, ⟨s, t, hs, ht, ht'⟩,
    fun d hd => ?_, fun hp' => ?_⟩
  · rw [Platform.channels_setChannel, List.getElem?_set_ne hd.symm]
  · have hs' : p'.channels[c]? = some s := hp'.trans hs
    exact ⟨p'.setChannel c t, Platform.stepAt_of_step hs' ht, by
      rw [ht', Platform.getElem?_setChannel_same hs' t]⟩

end Sys2Proof.Machine
end

section
/-! SUPPORT. The frame of each command: the fields it leaves as they were. -/

namespace Sys2Proof.Machine

variable {i : Instr} {s t : State}

theorem ExecNext.request_eq (h : ExecNext i s t) :
    t.reqAddr = s.reqAddr ∧ t.reqFc = s.reqFc ∧ t.reqStart = s.reqStart ∧ t.reqCount = s.reqCount := by
  cases h <;> simp

theorem ExecNext.ownFields_eq (h : ExecNext i s t) :
    t.inputs = s.inputs ∧ t.readData = s.readData ∧ t.draws = s.draws := by
  cases h <;> simp

theorem ExecNext.tx_eq (h : ExecNext i s t) (hne : i ≠ .encode) : t.tx = s.tx := by
  cases h with
  | encode => exact absurd rfl hne
  | _ => simp

theorem ExecNext.decStatus_eq (h : ExecNext i s t) (hne : i ≠ .decode) :
    t.result = s.result ∧ t.bcWarn = s.bcWarn ∧ t.excCode = s.excCode ∧ t.vcount = s.vcount := by
  cases h with
  | decode => exact absurd rfl hne
  | _ => simp

theorem ExecNext.saddr_eq (h : ExecNext i s t) (hne : i ≠ .syncStart) : t.saddr = s.saddr := by
  cases h with
  | syncStart => exact absurd rfl hne
  | _ => simp

theorem ExecNext.searchCounts_eq (h : ExecNext i s t) (hstart : i ≠ .syncStart) (hbyte : ∀ b, i ≠ .syncByte b) :
    t.huntLen = s.huntLen ∧ t.last = s.last ∧ t.noise = s.noise ∧ t.remain = s.remain := by
  cases h with
  | syncStart => exact absurd rfl hstart
  | marker b | huntFails b | huntGoesOn b | byteCount b | payload b => exact absurd rfl (hbyte b)
  | _ => simp

theorem ExecNext.fbLen_eq (h : ExecNext i s t) (hstart : i ≠ .syncStart) (hbyte : ∀ b, i ≠ .syncByte b)
    (hclear : i ≠ .fbClear) (hpush : ∀ b, i ≠ .fbPush b) : t.fbLen = s.fbLen := by
  cases h with
  | syncStart => exact absurd rfl hstart
  | fbClear => exact absurd rfl hclear
  | fbPush b => exact absurd rfl (hpush b)
  | marker b | byteCount b | payload b => exact absurd rfl (hbyte b)
  | _ => simp

theorem ExecNext.sync_eq (h : ExecNext i s t) (hne : ¬(i = .syncStart ∨ (∃ b, i = .syncByte b) ∨ i = .syncAbort ∨
    i = .fbClear ∨ ∃ b, i = .fbPush b)) : t.sync = s.sync := by
  cases h with
  | syncStart | fbClear | fbPush | marker | huntFails | byteCount | payload | abort => simp at hne
  | _ => simp

/-- FB_PUSH stores to FB[FB_LEN] and SYNC_BYTE to `syncStores`; every other byte of FB reads as before. -/
theorem ExecNext.fb_read_eq (h : ExecNext i s t) {a : Nat} (hpush : ∀ b, i = .fbPush b → a ≠ s.fbLen)
    (hbyte : ∀ b, i = .syncByte b → a ∉ syncStores b s) : t.fb.read a = s.fb.read a := by
  cases h with
  | fbPush b => exact Memory.read_write_other _ _ (hpush b rfl)
  | marker b _ hs hm =>
    have ha : a ≠ 0 ∧ a ≠ 1 := by simpa [syncStores, hs, hm] using hbyte b rfl
    exact (Memory.read_write_other _ _ ha.2).trans (Memory.read_write_other _ _ ha.1)
  | byteCount b _ hs => exact Memory.read_write_other _ _ (by simpa [syncStores, hs] using hbyte b rfl)
  | payload b _ hs => exact Memory.read_write_other _ _ (by simpa [syncStores, hs] using hbyte b rfl)
  | _ => simp

/-- DECODE writes the entries below the new VCOUNT, and these only on success (41_frame_codec.md R135). -/
theorem recordDecode_values_read (r : FrameResult) {j : Nat}
    (h : (recordDecode r s).result ≠ .ok ∨ (recordDecode r s).vcount ≤ j) :
    (recordDecode r s).values.read j = s.values.read j := by
  cases r with
  | ok vals warn =>
    have hj : ¬j < vals.length := by
      rcases h with h | h
      · exact absurd rfl h
      · exact Nat.not_lt.2 h
    change (s.values.writeList 0 vals).read j = _
    simp [Memory.read_writeList, hj]
  | short | funcExc | crcMismatch => rfl

theorem ExecNext.values_read_eq (h : ExecNext i s t) {j : Nat} (hj : i ≠ .decode ∨ t.result ≠ .ok ∨ t.vcount ≤ j) :
    t.values.read j = s.values.read j := by
  cases h with
  | decode => exact recordDecode_values_read _ (hj.resolve_left (absurd rfl ·))
  | _ => simp

end Sys2Proof.Machine
end

section
/-! SUPPORT. The statements about frames. -/

namespace Sys2Proof.Machine

/-- Settles O53, by the frame of each field. -/
theorem commandsLeaveOtherRegistersAlone : Obligations.CommandsLeaveOtherRegistersAlone := by
  intro i s t he
  have h := exec_eq_next_iff.1 he
  exact ⟨h.request_eq, h.ownFields_eq, h.tx_eq, h.decStatus_eq, h.saddr_eq, h.searchCounts_eq, h.fbLen_eq⟩

/-- Settles O54, by the frame of FB. -/
theorem fbKeepsEveryOtherByte : Obligations.FbKeepsEveryOtherByte :=
  fun _ _ _ _ he hpush hbyte => (exec_eq_next_iff.1 he).fb_read_eq hpush hbyte

/-- Settles O55, by the frame of VALUES. -/
theorem valuesKeepsEveryOtherEntry : Obligations.ValuesKeepsEveryOtherEntry :=
  fun _ _ _ _ he hj => (exec_eq_next_iff.1 he).values_read_eq hj

end Sys2Proof.Machine
end

section
/-! SUPPORT. The flags (10_state.md R44): which accesses write them, and that no command reads them. -/

namespace Sys2Proof.Machine

/-- Bit 0, 1 or 2 of ERR: ILL, SEQ, OVF (10_state.md R24). -/
def errBit (bit : Fin 3) (s : State) : Bool := [s.errIll, s.errSeq, s.errOvf][bit]

/-- Raising one error clears none. -/
theorem errBit_raiseCmdError (f : CmdError) {bit : Fin 3} {s : State} (h : errBit bit s = true) :
    errBit bit (raiseCmdError f s) = true := by
  match bit with
  | 0 | 1 | 2 => cases f <;> simp_all [errBit]

theorem errBit_clearErr (v : Word) (bit : Fin 3) (s : State) :
    errBit bit (clearErr v s) = (errBit bit s && !v.getLsbD bit) := by
  match bit with
  | 0 | 1 | 2 => rfl

/-- A command leaves ERR alone, or it is rejected and raises one error, which is all it does. -/
theorem ExecNext.errBit_eq_or_raise {i : Instr} {s t : State} (h : ExecNext i s t) :
    (∀ bit, errBit bit t = errBit bit s) ∨ ∃ f, t = raiseCmdError f s := by
  cases h with
  | seqActive | seqIdle => exact .inr ⟨.seq, rfl⟩
  | ovf => exact .inr ⟨.ovf, rfl⟩
  | _ => exact .inl fun bit => by simp [errBit]

theorem writeReg_decStatus (r : Reg) (v : Word) (s : State) : (writeReg r v s).result = s.result ∧
    (writeReg r v s).bcWarn = s.bcWarn ∧ (writeReg r v s).excCode = s.excCode := by
  cases r <;> exact ⟨rfl, rfl, rfl⟩

theorem writeReg_sync (r : Reg) (v : Word) (s : State) : (writeReg r v s).sync = s.sync := by
  cases r <;> rfl

/-- A write to a register other than ERR leaves the ERR bits alone. -/
theorem errBit_writeReg {r : Reg} (hr : r ≠ .err) (v : Word) (bit : Fin 3) (s : State) :
    errBit bit (writeReg r v s) = errBit bit s := by
  cases r with
  | err => exact absurd rfl hr
  | _ => rfl

/-- An access leaves ERR alone, or it is a CMD write that raises one error and does nothing else, or it is a write to
ERR, which clears the bits where its data has a 1. -/
theorem performAccess_errBit {a : Access} {s t : State} (h : performAccess a s = .next t) :
    (∀ bit, errBit bit t = errBit bit s) ∨
    (∃ v f, a = .write .word 0x000 v ∧ t = raiseCmdError f s) ∨
    (∃ v, a = .write .word 0x004 v ∧ ∀ bit : Fin 3, errBit bit t = (errBit bit s && !v.getLsbD bit)) := by
  rcases performAccess_cases a s t h with
    ⟨off, -, rfl⟩ | ⟨off, v, i, ha, hr, -, he⟩ | ⟨off, v, r, ha, hr, -, rfl⟩ | ⟨off, v, ha, -, rfl⟩
  · exact .inl fun bit => rfl
  · rw [regAt_eq_cmd_iff] at hr
    subst hr
    exact (exec_eq_next_iff.1 he).errBit_eq_or_raise.imp_right fun ⟨f, ht⟩ => .inl ⟨v, f, ha, ht⟩
  · rw [regAt_eq_cmd_iff] at hr
    subst hr
    exact .inr (.inl ⟨v, .ill, ha, rfl⟩)
  · by_cases hr : regAt off = .err
    · have hoff := (regAt_eq_err_iff off).1 hr
      subst hoff
      exact .inr (.inr ⟨v, ha, fun bit => errBit_clearErr v bit s⟩)
    · exact .inl fun bit => errBit_writeReg hr v bit s

/-- An access runs a command, or it leaves DEC_STATUS and STATE alone. -/
theorem performAccess_command_or_keeps {a : Access} {s t : State} (h : performAccess a s = .next t) :
    (∃ v i, a = .write .word 0x000 v ∧ decode v = .ok i ∧ ExecNext i s t) ∨
    ((t.result = s.result ∧ t.bcWarn = s.bcWarn ∧ t.excCode = s.excCode) ∧ t.sync = s.sync) := by
  rcases performAccess_cases a s t h with
    ⟨off, -, rfl⟩ | ⟨off, v, i, ha, hr, hd, he⟩ | ⟨off, v, r, -, -, -, rfl⟩ | ⟨off, v, -, -, rfl⟩
  · exact .inr ⟨⟨rfl, rfl, rfl⟩, rfl⟩
  · rw [regAt_eq_cmd_iff] at hr
    subst hr
    exact .inl ⟨v, i, ha, hd, exec_eq_next_iff.1 he⟩
  · exact .inr ⟨⟨rfl, rfl, rfl⟩, rfl⟩
  · exact .inr ⟨writeReg_decStatus _ v s, writeReg_sync _ v s⟩

/-- The state with every flag but STATE at its reset value. -/
def clearFlags (s : State) : State :=
  { s with errIll := false, errSeq := false, errOvf := false, result := .noDecode, bcWarn := false, excCode := 0#8 }

theorem clearFlags_recordDecode (r : FrameResult) (s : State) :
    clearFlags (recordDecode r (clearFlags s)) = clearFlags (recordDecode r s) := by
  cases r <;> rfl

/-- Each next state is reached with the flags cleared too, and then differs in flags alone. -/
theorem ExecNext.of_clearFlags {i : Instr} {s t : State} (h : ExecNext i s t) :
    ∃ u, ExecNext i (clearFlags s) u ∧ clearFlags u = clearFlags t := by
  cases h with
  | crcInit => exact ⟨_, .crcInit _, rfl⟩
  | crcByte b => exact ⟨_, .crcByte b _, rfl⟩
  | encode => exact ⟨_, .encode _, rfl⟩
  | seqActive _ _ hi ha => exact ⟨_, .seqActive i _ hi ha, rfl⟩
  | seqIdle b _ ha => exact ⟨_, .seqIdle b _ ha, rfl⟩
  | ovf b _ ha hl => exact ⟨_, .ovf b _ ha hl, rfl⟩
  | fbClear _ ha => exact ⟨_, .fbClear _ ha, rfl⟩
  | fbPush b _ ha hl => exact ⟨_, .fbPush b _ ha hl, rfl⟩
  | decode _ f ha hf => exact ⟨_, .decode _ f ha hf, clearFlags_recordDecode _ s⟩
  | syncStart => exact ⟨_, .syncStart _, rfl⟩
  | marker b _ hs hm => exact ⟨_, .marker b _ hs hm, rfl⟩
  | huntFails b _ hs hm hl => exact ⟨_, .huntFails b _ hs hm hl, rfl⟩
  | huntGoesOn b _ hs hm hl => exact ⟨_, .huntGoesOn b _ hs hm hl, rfl⟩
  | byteCount b _ hs => exact ⟨_, .byteCount b _ hs, rfl⟩
  | payload b _ hs hr hl => exact ⟨_, .payload b _ hs hr hl, rfl⟩
  | abort _ ha => exact ⟨_, .abort _ ha, rfl⟩
  | abortIdle _ ha => exact ⟨_, .abortIdle _ ha, rfl⟩

theorem ExecFault.of_clearFlags {i : Instr} {s : State} {r : Fault} (h : ExecFault i s r) :
    ExecFault i (clearFlags s) r := by
  cases h with
  | pushIndex b _ ha hl => exact .pushIndex b _ ha hl
  | payloadIndex b _ hs hr hl => exact .payloadIndex b _ hs hr hl
  | unwritten _ ha hf => exact .unwritten _ ha hf
  | remainZero b _ hs hr => exact .remainZero b _ hs hr

/-- No command reads a flag but STATE: clearing the others before it changes no more than clearing them after it. -/
theorem exec_clearFlags (i : Instr) (s : State) :
    mapNext clearFlags (exec i (clearFlags s)) = mapNext clearFlags (exec i s) := by
  rcases exec_cases i s with ⟨t, he, hn⟩ | ⟨r, he, hf⟩
  · obtain ⟨u, hu, hut⟩ := hn.of_clearFlags
    rw [he, exec_eq_next_iff.2 hu]
    exact congrArg Host.Outcome.next hut
  · rw [he, exec_eq_fault_iff.2 hf.of_clearFlags]

/-- A DECODE outside a search answers the same whatever DEC_STATUS held. -/
theorem execDecode_of_decStatus (s : State) (r : DecResult) (w : Bool) (e : Byte) (ha : s.sync.active = false) :
    execDecode { s with result := r, bcWarn := w, excCode := e } = execDecode s := by
  have hrec : ∀ d, recordDecode d { s with result := r, bcWarn := w, excCode := e } = recordDecode d s := by
    intro d
    cases d <;> rfl
  simp [execDecode, frameInFb, ha, hrec]

/-- Settles O51: the ERR bits by what each access does to them, DEC_STATUS and STATE by the frame of each command, and
the last two parts by running a command with the flags replaced. -/
theorem flagsHaveOnlyTheirWriters : Obligations.FlagsHaveOnlyTheirWriters := by
  refine ⟨fun s t a rest h => ?_, fun s r w e hs => ?_, fun i s ill seq ovf r w e => ?_⟩
  · rw [step_withAccess] at h
    refine ⟨fun bit => ?_, fun hne => ?_, fun hne => ?_⟩
    · change (errBit bit s = true → errBit bit t = false → _) ∧ (errBit bit s = false → errBit bit t = true → _)
      rcases performAccess_errBit h with heq | ⟨v, f, ha, rfl⟩ | ⟨v, ha, hclear⟩
      · have hb : errBit bit t = errBit bit s := heq bit
        rw [hb]
        exact ⟨fun h1 h0 => absurd h0 (by simp [h1]), fun h0 h1 => absurd h0 (by simp [h1])⟩
      · refine ⟨fun h1 h0 => ?_, fun _ _ => ⟨v, ha, by cases f <;> rfl⟩⟩
        rw [errBit_raiseCmdError f (s := takeEvent rest s) h1] at h0
        cases h0
      · have hb : errBit bit t = (errBit bit s && !v.getLsbD bit) := hclear bit
        refine ⟨fun h1 h0 => ⟨v, ha, by simpa [hb, h1] using h0⟩, fun h0 h1 => ?_⟩
        simp [hb, h0] at h1
    · rcases performAccess_command_or_keeps h with ⟨v, i, ha, hd, he⟩ | ⟨hkeep, -⟩
      · obtain ⟨hr, hw, he, -⟩ := he.decStatus_eq fun hi => hne ⟨v, ha, hi ▸ hd⟩
        exact ⟨hr, hw, he⟩
      · exact hkeep
    · rcases performAccess_command_or_keeps h with ⟨v, i, ha, hd, he⟩ | ⟨-, hkeep⟩
      · exact he.sync_eq fun hi => hne ⟨v, i, ha, hd, hi⟩
      · exact hkeep
  · exact execDecode_of_decStatus s r w e ((SyncState.not_active_iff s.sync).2 hs)
  · exact (exec_clearFlags i { s with
      errIll := ill, errSeq := seq, errOvf := ovf, result := r, bcWarn := w, excCode := e }).symm.trans
        (exec_clearFlags i s)

end Sys2Proof.Machine
end

section
/-! SUPPORT. What the words of the status and count registers are as numbers, and the two words of TX. -/

namespace Sys2Proof.Machine

/-- Two fields of a bus word that do not overlap add up. -/
theorem toNat_or_shiftLeft {x y : Word} {k : Nat} (hx : x.toNat < 2 ^ k) (hy : y.toNat * 2 ^ k < 2 ^ 32) :
    (x ||| y <<< k).toNat = x.toNat + y.toNat * 2 ^ k := by
  rw [BitVec.toNat_or, BitVec.toNat_shiftLeft, Nat.shiftLeft_eq, Nat.mod_eq_of_lt hy, Nat.or_comm,
    ← Nat.shiftLeft_eq, ← Nat.shiftLeft_add_eq_or_of_lt hx, Nat.add_comm]

/-- A count that fits its register's width reads as itself (log 10). -/
theorem toNat_countWord {w n : Nat} (hn : n < 2 ^ w) (hw : w ≤ 32) : (countWord w n).toNat = n := by
  rw [countWord, BitVec.toNat_setWidth_of_le hw, BitVec.toNat_ofNat, Nat.mod_eq_of_lt hn]

theorem toNat_errWord (s : State) :
    (errWord s).toNat = s.errIll.toNat + 2 * s.errSeq.toNat + 4 * s.errOvf.toNat := by
  unfold errWord
  cases s.errIll <;> cases s.errSeq <;> cases s.errOvf <;> rfl

theorem toNat_decStatusWord (s : State) :
    (decStatusWord s).toNat = s.result.code.toNat + 8 * s.bcWarn.toNat + 256 * s.excCode.toNat := by
  have hr : (s.result.code.setWidth 32).toNat = s.result.code.toNat := BitVec.toNat_setWidth_of_le (by decide)
  have hw : ((BitVec.ofBool s.bcWarn).setWidth 32).toNat = s.bcWarn.toNat := by cases s.bcWarn <;> rfl
  have he : (s.excCode.setWidth 32).toNat = s.excCode.toNat := BitVec.toNat_setWidth_of_le (by decide)
  have hr_lt := s.result.code.isLt
  have hw_le := s.bcWarn.toNat_le
  have he_lt := s.excCode.isLt
  have hlow : (s.result.code.setWidth 32 ||| (BitVec.ofBool s.bcWarn).setWidth 32 <<< 3 : Word).toNat =
      s.result.code.toNat + s.bcWarn.toNat * 2 ^ 3 := by
    rw [toNat_or_shiftLeft] <;> omega
  rw [decStatusWord, toNat_or_shiftLeft] <;> omega

theorem toNat_syncStateWord (s : State) :
    (syncStateWord s).toNat = s.sync.code.toNat + 256 * s.saddr.toNat := by
  have hc : (s.sync.code.setWidth 32).toNat = s.sync.code.toNat := BitVec.toNat_setWidth_of_le (by decide)
  have ha : (s.saddr.setWidth 32).toNat = s.saddr.toNat := BitVec.toNat_setWidth_of_le (by decide)
  have hc_lt := s.sync.code.isLt
  have ha_lt := s.saddr.isLt
  rw [syncStateWord, toNat_or_shiftLeft] <;> omega

theorem toNat_syncHuntWord (s : State) (h : s.huntLen ≤ 101) :
    (syncHuntWord s).toNat = s.huntLen + 256 * s.last.toNat := by
  have hc : (countWord 7 s.huntLen).toNat = s.huntLen := toNat_countWord (by omega) (by decide)
  have hl : (s.last.setWidth 32).toNat = s.last.toNat := BitVec.toNat_setWidth_of_le (by decide)
  have hl_lt := s.last.isLt
  rw [syncHuntWord, toNat_or_shiftLeft] <;> omega

/-- Settles O17: each count fits its field by the invariant, and the fields of a word do not overlap. -/
theorem registersReadTheirFields : Obligations.RegistersReadTheirFields := by
  intro s h
  have hfb : s.fbLen < 2 ^ 9 := Nat.lt_of_le_of_lt h.fbLen_le (by decide)
  have hvc : s.vcount < 2 ^ 7 := Nat.lt_of_le_of_lt h.vcount_le (by decide)
  have hno : s.noise < 2 ^ 7 := Nat.lt_of_le_of_lt h.noise_le (by decide)
  have hre : s.remain < 2 ^ 9 := Nat.lt_of_le_of_lt h.remain_le (by decide)
  have byte_eq : ∀ b : Byte, (b.setWidth 32 : Word).toNat = b.toNat := fun _ =>
    BitVec.toNat_setWidth_of_le (by decide)
  have half_eq : ∀ x : Half, (x.setWidth 32 : Word).toNat = x.toNat := fun _ =>
    BitVec.toNat_setWidth_of_le (by decide)
  refine ⟨toNat_errWord s, half_eq _, byte_eq _, byte_eq _, half_eq _, half_eq _, toNat_countWord hfb (by decide), ?_,
    toNat_countWord hvc (by decide), ?_, toNat_syncHuntWord s h.huntLen_le, toNat_countWord hno (by decide),
    toNat_countWord hre (by decide)⟩
  · refine (toNat_decStatusWord s).trans ?_
    cases s.result <;> rfl
  · refine (toNat_syncStateWord s).trans ?_
    cases s.sync <;> rfl

/-- The CRC's two bytes in the upper lanes of a word, its low byte lower, make the CRC. -/
theorem upperHalf_lanes (a b : Byte) (h : Half) :
    (lanes a b (loByte h) (hiByte h)).extractLsb' 16 16 = h := by
  apply BitVec.eq_of_getLsbD_eq
  intro i hi
  by_cases h8 : i < 8
  · have hlane := congrArg (·.getLsbD i) (lanes_lane2 a b (loByte h) (hiByte h))
    simpa [loByte, hi, h8] using hlane
  · have hlane := congrArg (·.getLsbD (i - 8)) (lanes_lane3 a b (loByte h) (hiByte h))
    have e1 : 24 + (i - 8) = 16 + i := by omega
    have e2 : 8 + (i - 8) = i := by omega
    have e3 : i - 8 < 8 := by omega
    simpa [hiByte, hi, e1, e2, e3] using hlane

/-- Settles O18: the lanes of the two words, and the CRC's bytes in TX[6] and TX[7]. -/
theorem txWordsHoldTheLowerIndexLower : Obligations.TxWordsHoldTheLowerIndexLower := by
  refine ⟨fun s => ⟨rfl, lanes_lane0 .., lanes_lane1 .., lanes_lane2 .., lanes_lane3 ..,
    lanes_lane0 .., lanes_lane1 .., lanes_lane2 .., lanes_lane3 ..⟩,
    fun s => ⟨_, rfl, upperHalf_lanes ..⟩, fun s v rest => ⟨?_, ?_⟩, by decide, by decide⟩
  · rw [step_write _ _ _ _ (by decide) (by decide)]; rfl
  · rw [step_write _ _ _ _ (by decide) (by decide)]; rfl

end Sys2Proof.Machine
end

section
/-! SUPPORT. The register window, register by register: which bits are defined, which registers ignore writes, and that a
read disturbs no later one. -/

namespace Sys2Proof.Machine

/-! ### Defined and reserved bits (20_memory.md R65) -/

/-- The bits of a register that are not reserved, in the layouts of 10_state.md. -/
def Reg.definedBits : Reg → Word
  | .cmd | .reserved => 0x00000000#32
  | .err => 0x00000007#32
  | .crc | .reqStart | .reqCount | .values _ => 0x0000FFFF#32
  | .reqAddr | .reqFc => 0x000000FF#32
  | .txLo | .txHi | .fbWin _ => 0xFFFFFFFF#32
  | .fbLen | .syncRemain => 0x000001FF#32
  | .decStatus => 0x0000FF0F#32
  | .decVcount | .syncNoise => 0x0000007F#32
  | .syncState => 0x0000FF07#32
  | .syncHunt => 0x0000FF7F#32

/-- A field of `w` bits at bit `k` of a word is 0 outside its own bits. -/
theorem shiftedField_and_eq_zero {w : Nat} (x : BitVec w) (k : Nat) {n : Word}
    (hn : (BitVec.allOnes w).setWidth 32 <<< k &&& n = 0#32) : x.setWidth 32 <<< k &&& n = 0#32 := by
  apply BitVec.eq_of_getLsbD_eq
  intro i hi
  have hbit := congrArg (·.getLsbD i) hn
  by_cases hx : x.getLsbD (i - k) = true
  · have hlt : i - k < w := BitVec.lt_of_getLsbD hx
    simpa [hx, hlt] using hbit
  · simp [hx]

theorem field_and_eq_zero {w : Nat} (x : BitVec w) {n : Word}
    (hn : (BitVec.allOnes w).setWidth 32 &&& n = 0#32) : x.setWidth 32 &&& n = 0#32 := by
  simpa using shiftedField_and_eq_zero x 0 (n := n) (by simpa using hn)

/-- Two fields joined are 0 where both are. -/
theorem or_and_eq_zero {x y n : Word} (hx : x &&& n = 0#32) (hy : y &&& n = 0#32) : (x ||| y) &&& n = 0#32 := by
  rw [BitVec.and_comm, BitVec.and_or_distrib_left, BitVec.and_comm n x, BitVec.and_comm n y, hx, hy, BitVec.or_self]

theorem valuesWord_and_eq_zero (s : State) (i d : Nat) : valuesWord s i d &&& ~~~0x0000FFFF#32 = 0#32 := by
  rcases valuesWord_cases s i d with ⟨x, -, hw⟩ | ⟨-, hw⟩ <;> rw [hw] <;> exact field_and_eq_zero _ (by decide)

/-- The reserved bits of every register read 0, in every state. -/
theorem readReg_and_not_definedBits (r : Reg) (s : State) : readReg r s &&& ~~~r.definedBits = 0#32 := by
  cases r with
  | cmd | reserved => exact BitVec.zero_and
  | txLo | txHi | fbWin => simp [Reg.definedBits]
  | crc | reqAddr | reqFc | reqStart | reqCount | fbLen | decVcount | syncNoise | syncRemain =>
    exact field_and_eq_zero _ (by decide)
  | values i => exact valuesWord_and_eq_zero s i s.draws
  | err =>
    exact or_and_eq_zero (or_and_eq_zero (field_and_eq_zero _ (by decide)) (shiftedField_and_eq_zero _ 1 (by decide)))
      (shiftedField_and_eq_zero _ 2 (by decide))
  | decStatus =>
    exact or_and_eq_zero (or_and_eq_zero (field_and_eq_zero _ (by decide)) (shiftedField_and_eq_zero _ 3 (by decide)))
      (shiftedField_and_eq_zero _ 8 (by decide))
  | syncState | syncHunt =>
    exact or_and_eq_zero (field_and_eq_zero _ (by decide)) (shiftedField_and_eq_zero _ 8 (by decide))

/-- The low bits of a word are those of the word masked to them. -/
theorem extractLsb'_zero_and {k : Nat} (v : Word) {m : Word} (hm : m.extractLsb' 0 k = BitVec.allOnes k) :
    (v &&& m).extractLsb' 0 k = v.extractLsb' 0 k := by
  rw [BitVec.extractLsb'_and, hm, BitVec.and_allOnes]

/-- A write's reserved bits are ignored. -/
theorem writeReg_and_definedBits (r : Reg) (v : Word) (s : State) :
    writeReg r (v &&& r.definedBits) s = writeReg r v s := by
  have hbyte : (v &&& 0x000000FF#32).extractLsb' 0 8 = v.extractLsb' 0 8 := extractLsb'_zero_and v (by decide)
  have hhalf : (v &&& 0x0000FFFF#32).extractLsb' 0 16 = v.extractLsb' 0 16 := extractLsb'_zero_and v (by decide)
  cases r with
  | err => simp [writeReg, clearErr, Reg.definedBits]
  | reqAddr | reqFc => simp only [writeReg, Reg.definedBits, hbyte]
  | reqStart | reqCount => simp only [writeReg, Reg.definedBits, hhalf]
  | _ => rfl

/-! ### Registers that ignore writes (20_memory.md R65, R68) -/

/-- The read-only registers, the two windows and the reserved offsets. -/
def Reg.ignoresWrites : Reg → Bool
  | .cmd | .err | .reqAddr | .reqFc | .reqStart | .reqCount => false
  | .crc | .txLo | .txHi | .fbLen | .decStatus | .decVcount | .syncState | .syncHunt | .syncNoise | .syncRemain
  | .values _ | .fbWin _ | .reserved => true

theorem writeReg_of_ignoresWrites {r : Reg} (h : r.ignoresWrites = true) (v : Word) (s : State) :
    writeReg r v s = s := by
  cases r with
  | cmd | err | reqAddr | reqFc | reqStart | reqCount => cases h
  | _ => rfl

/-- A step that writes to a register other than CMD. -/
theorem step_writeReg {off : Nat} (v : Word) (rest : List HostEvent) (s : State) (h : off % 4 = 0) (h' : off < 4096)
    (hne : regAt off ≠ .cmd) :
    step (withAccess (.write .word off v) rest s) = .next (writeReg (regAt off) v (takeEvent rest s)) := by
  rw [step_write off v rest s h h', memWrite_of_ne_cmd off v _ hne]

/-- A step that writes to a register that ignores writes does no more than take the event. -/
theorem step_write_ignored {off : Nat} (v : Word) (rest : List HostEvent) (s : State) (h : off % 4 = 0)
    (h' : off < 4096) (hi : (regAt off).ignoresWrites = true) :
    step (withAccess (.write .word off v) rest s) = .next (takeEvent rest s) := by
  have hne : regAt off ≠ .cmd := by
    intro hc
    rw [hc] at hi
    cases hi
  rw [step_writeReg v rest s h h' hne, writeReg_of_ignoresWrites hi]

/-! ### What a read of the windows returns (20_memory.md R66, R71, R72) -/

/-- A written VALUES entry reads as its contents, whatever the draw. -/
theorem valuesWord_of_read_eq_some {s : State} {i : Nat} {x : Half} (d : Nat) (h : s.values.read i = some x) :
    valuesWord s i d = x.setWidth 32 := by
  simp [valuesWord, h]

theorem valuesWord_of_read_eq_none {s : State} {i : Nat} (d : Nat) (h : s.values.read i = none) :
    valuesWord s i d = (Config.freeHalf d).setWidth 32 := by
  simp [valuesWord, h]

/-- A written FB byte reads as its contents, whatever the draw. -/
theorem fbLane_of_read_eq_some {s : State} {i : Nat} {b : Byte} (d : Nat) (h : s.fb.read i = some b) :
    fbLane s i d = b := by
  simp [fbLane, h]

theorem fbLane_of_read_eq_none {s : State} {i : Nat} (d : Nat) (h : s.fb.read i = none) :
    fbLane s i d = Config.freeByte d := by
  simp [fbLane, h]

/-- Lane `j` of FB_WIN[k] is byte 4k + j, with a draw of its own. -/
theorem fbWinWord_lane (s : State) (k : Nat) {j : Nat} (hj : j < 4) :
    (fbWinWord s k).extractLsb' (8 * j) 8 = fbLane s (4 * k + j) (s.draws + j) := by
  match j, hj with
  | 0, _ => exact lanes_lane0 ..
  | 1, _ => exact lanes_lane1 ..
  | 2, _ => exact lanes_lane2 ..
  | 3, _ => exact lanes_lane3 ..

/-- The draws used before it change nothing in a read of a written VALUES entry. -/
theorem valuesWord_memRead {s : State} {i : Nat} (h : (s.values.read i).isSome) (off d d' : Nat) :
    valuesWord (memRead off s) i d = valuesWord s i d' := by
  obtain ⟨x, hx⟩ := Option.isSome_iff_exists.1 h
  rw [valuesWord_of_read_eq_some d' hx, valuesWord_of_read_eq_some d (by simpa using hx)]

/-- The draws used before it change nothing in a read of a written FB byte. -/
theorem fbLane_memRead {s : State} {i : Nat} (h : (s.fb.read i).isSome) (off d d' : Nat) :
    fbLane (memRead off s) i d = fbLane s i d' := by
  obtain ⟨b, hb⟩ := Option.isSome_iff_exists.1 h
  rw [fbLane_of_read_eq_some d' hb, fbLane_of_read_eq_some d (by simpa using hb)]

theorem fbWinWord_memRead {s : State} {k : Nat} (h : ∀ j, j < 4 → (s.fb.read (4 * k + j)).isSome) (off : Nat) :
    fbWinWord (memRead off s) k = fbWinWord s k := by
  simp only [fbWinWord]
  congr 1
  · exact fbLane_memRead (h 0 (by decide)) ..
  · exact fbLane_memRead (h 1 (by decide)) ..
  · exact fbLane_memRead (h 2 (by decide)) ..
  · exact fbLane_memRead (h 3 (by decide)) ..

/-- After a read, a register reads as before, if what it shows of VALUES or FB is written. -/
theorem readReg_memRead {r : Reg} {s : State} (off : Nat) (hv : ∀ i, r = .values i → (s.values.read i).isSome)
    (hf : ∀ k, r = .fbWin k → ∀ j, j < 4 → (s.fb.read (4 * k + j)).isSome) :
    readReg r (memRead off s) = readReg r s := by
  cases r with
  | values i => exact valuesWord_memRead (hv i rfl) ..
  | fbWin k => exact fbWinWord_memRead (hf k rfl) off
  | _ => rfl

end Sys2Proof.Machine
end

section
/-! SUPPORT. The statements about accesses of the register window. -/

namespace Sys2Proof.Machine

/-- A read that has a next state leads to `memRead`'s. -/
theorem step_read_eq_next {off : Nat} {rest : List HostEvent} {s t : State}
    (h : step (withAccess (.read .word off) rest s) = .next t) : t = memRead off (takeEvent rest s) := by
  rw [step_withAccess] at h
  rcases performAccess_cases _ _ _ h with
    ⟨_, ha, rfl⟩ | ⟨_, _, _, ha, -⟩ | ⟨_, _, _, ha, -⟩ | ⟨_, _, ha, -⟩ <;> cases ha
  rfl

/-- Settles O12: a read changes only the script, the data returned and the draws, and what was written needs no draw. -/
theorem readingTwiceGivesTheSameWord : Obligations.ReadingTwiceGivesTheSameWord := by
  intro s t off off' rest h hv hf
  rw [step_read_eq_next h, readReg_memRead off' (by simpa using hv) (by simpa using hf), readReg_takeEvent]

/-- Settles O16, by the bits each register defines. -/
theorem reservedOffsetsAndBitsReadZeroAndIgnoreWrites :
    Obligations.ReservedOffsetsAndBitsReadZeroAndIgnoreWrites := by
  refine ⟨fun s v off rest h4 hoff => ?_, fun s p hp => ?_, fun s i hi => ?_, fun s v w rest p hp hvw => ?_⟩
  · have hr := regAt_reserved off hoff
    have hlt : off < 4096 := by omega
    refine ⟨?_, step_write_ignored v rest s h4 hlt (by rw [hr]; rfl)⟩
    rw [step_read off rest s h4 hlt, memRead, hr]
    rfl
  · have hbits : (regAt p.1).definedBits = p.2 := by
      revert p
      decide
    rw [← hbits]
    exact readReg_and_not_definedBits _ s
  · rw [regAt_values i hi]
    exact valuesWord_and_eq_zero s i s.draws
  · have hreg : p.1 % 4 = 0 ∧ p.1 < 4096 ∧ regAt p.1 ≠ .cmd ∧ (regAt p.1).definedBits = p.2 := by
      clear hvw
      revert p
      decide
    obtain ⟨h4, hlt, hne, hbits⟩ := hreg
    rw [step_writeReg v rest s h4 hlt hne, step_writeReg w rest s h4 hlt hne, ← writeReg_and_definedBits _ v,
      ← writeReg_and_definedBits _ w, hbits, hvw]

/-- Settles O19: the word of the entry, with the draw counted so far. -/
theorem valuesWindowReadsTheEntries : Obligations.ValuesWindowReadsTheEntries := by
  intro s i rest hi
  refine ⟨_, step_read _ rest s (by omega) (by omega), valuesWord s i s.draws, ?_,
    fun _ => valuesWord_of_read_eq_some _, valuesWord_of_read_eq_none _⟩
  rw [memRead_readData, regAt_values i hi, readReg_takeEvent]
  rfl

/-- Settles O20, lane by lane. -/
theorem fbWindowReadsFourLanes : Obligations.FbWindowReadsFourLanes := by
  intro s k rest hk
  refine ⟨_, step_read _ rest s (by omega) (by omega), fbWinWord s k, ?_, fun j hj => ?_⟩
  · rw [memRead_readData, regAt_fbWin k hk, readReg_takeEvent]
    rfl
  · rw [fbWinWord_lane s k hj]
    exact ⟨fun _ => fbLane_of_read_eq_some _, fbLane_of_read_eq_none _⟩

/-- Settles O7: such an access is not well formed. -/
theorem meaninglessAccessesAreRefused : Obligations.MeaninglessAccessesAreRefused := by
  intro s a rest h
  refine performAccess_of_not_wf a (takeEvent rest s) ?_
  rcases h with h | h <;> simp [Access.wf, h]

/-- Settles O8: the first part as for O7, the second by the empty script. -/
theorem noStepOutsideTheWindowOrWithoutAnAccess : Obligations.NoStepOutsideTheWindowOrWithoutAnAccess := by
  refine fun s a rest => ⟨fun h => performAccess_of_not_wf a (takeEvent rest s) ?_, step_nil _ rfl⟩
  simp [Access.wf, h]

/-- Settles O11: a read is `memRead` at the state with the event taken, and the read data is no part of what it reads. -/
theorem readsReturnTheRegisterAndChangeNothing : Obligations.ReadsReturnTheRegisterAndChangeNothing := by
  refine ⟨fun s off rest h4 hlt => ⟨drawsOf (regAt off), ?_⟩, fun s rest => ⟨rfl, ?_⟩⟩
  · rw [step_read off rest s h4 hlt, memRead, readReg_takeEvent]
    rfl
  · rw [step_read _ rest s (by decide) (by decide)]
    rfl

/-- Settles O13: `writeReg` at the four offsets. -/
theorem requestRegisterWritesStoreTheDefinedBits : Obligations.RequestRegisterWritesStoreTheDefinedBits :=
  fun s v rest => ⟨step_writeReg v rest s (by decide) (by decide) (by decide),
    step_writeReg v rest s (by decide) (by decide) (by decide),
    step_writeReg v rest s (by decide) (by decide) (by decide),
    step_writeReg v rest s (by decide) (by decide) (by decide)⟩

/-- A write of 0 to ERR clears nothing. -/
theorem clearErr_zero (s : State) : clearErr 0#32 s = s := by
  simp [clearErr]

/-- Settles O14: `writeReg` at ERR is `clearErr`. -/
theorem errIsWriteOneToClear : Obligations.ErrIsWriteOneToClear := by
  refine fun s v rest => ⟨step_writeReg v rest s (by decide) (by decide) (by decide), ?_⟩
  rw [step_writeReg 0#32 rest s (by decide) (by decide) (by decide)]
  exact congrArg Host.Outcome.next (clearErr_zero (takeEvent rest s))

/-- Settles O15: the registers at these offsets ignore writes. -/
theorem readOnlyWritesHaveNoEffect : Obligations.ReadOnlyWritesHaveNoEffect := by
  intro s v off rest hoff
  have hreg : off % 4 = 0 ∧ off < 4096 ∧ (regAt off).ignoresWrites = true := by
    rcases hoff with hoff | ⟨i, hi, rfl⟩ | ⟨k, hk, rfl⟩
    · revert off
      decide
    · rw [regAt_values i hi]
      exact ⟨by omega, by omega, rfl⟩
    · rw [regAt_fbWin k hk]
      exact ⟨by omega, by omega, rfl⟩
  obtain ⟨h4, hlt, hi⟩ := hreg
  exact step_write_ignored v rest s h4 hlt hi

/-- A step whose event writes a word to CMD runs it. -/
theorem step_writeCmd (v : Word) (rest : List HostEvent) (s : State) :
    step (withAccess (.write .word 0x000 v) rest s) = runCommand v (takeEvent rest s) := by
  rw [step_write _ v rest s (by decide) (by decide), memWrite_cmd]

/-- Placing a 32-bit command word puts its CMD write first in the script. -/
theorem withFetchWord_toNat (s : State) (v : Word) :
    s.withFetchWord 32 v.toNat = withAccess (.write .word 0x000 v) s.inputs s := by
  rw [State.withFetchWord, Nat.mod_eq_of_lt v.isLt, BitVec.ofNat_toNat, BitVec.setWidth_eq]
  rfl

/-- Settles O5: the write runs the word, and what a word runs as is its decoding. -/
theorem stepRunsTheDecodedCommand : Obligations.StepRunsTheDecodedCommand := by
  intro s v rest
  rw [withFetchWord_toNat, step_writeCmd, step_writeCmd]
  refine ⟨rfl, rfl, fun i hd _ => ⟨runCommand_of_decode _ hd, runCommand_of_decode _ hd⟩, fun r hd => ?_⟩
  exact runCommand_illegal _ ((decode_eq_error_iff v).1 ⟨r, hd⟩)

end Sys2Proof.Machine
end

section
/-! SUPPORT. No access reads the host's script or changes it: with another script it does the same (20_memory.md R75,
log 1). -/

namespace Sys2Proof.Machine

/-- The state with another script. -/
def setScript (l : List HostEvent) (s : State) : State := { s with inputs := l }

theorem recordDecode_setScript (r : FrameResult) (l : List HostEvent) (s : State) :
    recordDecode r (setScript l s) = setScript l (recordDecode r s) := by
  cases r <;> rfl

theorem readReg_setScript (r : Reg) (l : List HostEvent) (s : State) : readReg r (setScript l s) = readReg r s := by
  cases r <;> rfl

theorem memRead_setScript (off : Nat) (l : List HostEvent) (s : State) :
    memRead off (setScript l s) = setScript l (memRead off s) := by
  rw [memRead, readReg_setScript]
  rfl

theorem writeReg_setScript (r : Reg) (v : Word) (l : List HostEvent) (s : State) :
    writeReg r v (setScript l s) = setScript l (writeReg r v s) := by
  cases r <;> rfl

/-- Each next state of a command is reached with another script too, which stays. -/
theorem ExecNext.with_setScript {i : Instr} {s t : State} (h : ExecNext i s t) (l : List HostEvent) :
    ExecNext i (setScript l s) (setScript l t) := by
  cases h with
  | decode _ f ha hf =>
    rw [← recordDecode_setScript]
    exact .decode _ f ha hf
  | seqIdle b _ ha => exact .seqIdle b _ ha
  | _ => constructor <;> assumption

theorem runCommand_setScript {v : Word} {s t : State} (h : runCommand v s = .next t) (l : List HostEvent) :
    runCommand v (setScript l s) = .next (setScript l t) := by
  unfold runCommand at h ⊢
  cases hd : decode v with
  | ok i =>
    rw [hd] at h
    exact exec_eq_next_iff.2 ((exec_eq_next_iff.1 h).with_setScript l)
  | error r =>
    rw [hd] at h
    cases h
    rfl

theorem memWrite_setScript {off : Nat} {v : Word} {s t : State} (h : memWrite off v s = .next t)
    (l : List HostEvent) : memWrite off v (setScript l s) = .next (setScript l t) := by
  by_cases hc : regAt off = .cmd
  · obtain rfl := (regAt_eq_cmd_iff off).1 hc
    exact runCommand_setScript h l
  · rw [memWrite_of_ne_cmd off v _ hc] at h ⊢
    cases h
    rw [writeReg_setScript]

theorem performAccess_setScript {a : Access} {s t : State} (h : performAccess a s = .next t) (l : List HostEvent) :
    performAccess a (setScript l s) = .next (setScript l t) := by
  unfold performAccess at h ⊢
  cases hr : accessRefusal a with
  | some r => rw [hr] at h; cases h
  | none =>
    rw [hr] at h
    cases a with
    | read z off =>
      cases h
      exact congrArg Host.Outcome.next (memRead_setScript off l s)
    | write z off v => exact memWrite_setScript h l

theorem performEvent_setScript {e : HostEvent} {s t : State} (h : performEvent e s = .next t) (l : List HostEvent) :
    performEvent e (setScript l s) = .next (setScript l t) := by
  cases e with
  | access a => exact performAccess_setScript h l
  | reset => cases h; rfl

/-- An event leaves the script as it is: setting it to itself before the event is setting it to itself after. -/
theorem performEvent_inputs {e : HostEvent} {s t : State} (h : performEvent e s = .next t) : t.inputs = s.inputs := by
  have hself : performEvent e s = .next (setScript s.inputs t) := performEvent_setScript h s.inputs
  have ht : t = setScript s.inputs t := Host.Outcome.next.inj (h.symm.trans hself)
  exact (congrArg State.inputs ht).trans rfl

/-- Settles O6: the event taken is performed with any rest of the script, which it leaves as it is. -/
theorem stepPerformsTheFirstEventOnly : Obligations.StepPerformsTheFirstEventOnly := by
  intro s t h
  cases hs : s.inputs with
  | nil =>
    rw [step_nil s hs] at h
    cases h
  | cons e rest =>
    rw [step_cons s e rest hs] at h
    obtain rfl : t.inputs = rest := performEvent_inputs h
    exact ⟨e, rfl, fun other => performEvent_setScript h other⟩

end Sys2Proof.Machine
end

section
/-! SUPPORT. Which words are commands: the word under the selection mask, and the nine opcodes
(spec/30_encoding.md R81, R82). -/

namespace Sys2Proof.Machine

/-- The selection mask keeps RSV and OP and clears B. -/
theorem and_selectionMask (v : Word) : v &&& 0xFFFF00FF#32 = fieldsWord (rsvOf v) 0#8 (opOf v) := by
  have hr : rsvOf (v &&& 0xFFFF00FF#32) = rsvOf v := by
    rw [rsvOf, BitVec.extractLsb'_and]
    exact BitVec.and_allOnes
  have hb : byteOf (v &&& 0xFFFF00FF#32) = 0#8 := by
    rw [byteOf, BitVec.extractLsb'_and]
    exact BitVec.and_zero
  have ho : opOf (v &&& 0xFFFF00FF#32) = opOf v := by
    rw [opOf, BitVec.extractLsb'_and]
    exact BitVec.and_allOnes
  rw [← fieldsWord_fields (v &&& 0xFFFF00FF#32), hr, hb, ho]

/-- The masked word is the word of an opcode exactly where RSV is 0 and OP is that opcode. -/
theorem and_selectionMask_eq_commandWord_iff (v : Word) (op : Byte) :
    v &&& 0xFFFF00FF#32 = commandWord op 0#8 ↔ rsvOf v = 0#16 ∧ opOf v = op := by
  rw [and_selectionMask, commandWord_eq]
  constructor
  · intro h
    exact ⟨by simpa using congrArg rsvOf h, by simpa using congrArg opOf h⟩
  · rintro ⟨hr, ho⟩
    rw [hr, ho]

/-- The decoder selects a command without operand by the masked word alone. -/
theorem decode_eq_ok_iff_of_byteOperand_eq_none (v : Word) {i : Instr} (hi : byteOperand i = none) :
    decode v = .ok i ↔ v &&& 0xFFFF00FF#32 = commandWord (opcode i) 0#8 := by
  rw [decode_eq_ok_iff, and_selectionMask_eq_commandWord_iff]
  simp [hi]

/-- The decoder selects a command with operand by the masked word, and B is the operand. -/
theorem decode_eq_ok_iff_of_byteOperand_eq_some (v : Word) {i : Instr} {op b : Byte} (ho : opcode i = op)
    (hi : byteOperand i = some b) :
    decode v = .ok i ↔ v &&& 0xFFFF00FF#32 = commandWord op 0#8 ∧ byteOf v = b := by
  rw [decode_eq_ok_iff, and_selectionMask_eq_commandWord_iff]
  simp [ho, hi, and_assoc]

/-- The assigned opcodes, in the order of the rows of spec/30_encoding.md R82. -/
def opcodes : List Byte := [0x01#8, 0x02#8, 0x10#8, 0x20#8, 0x21#8, 0x22#8, 0x30#8, 0x31#8, 0x32#8]

theorem opcode_mem_opcodes (i : Instr) : opcode i ∈ opcodes := by
  cases i <;> simp [opcode, opcodes]

/-- Every assigned opcode is a command's; the operand of that command does not matter. -/
theorem exists_opcode_eq_of_mem_opcodes {op : Byte} (h : op ∈ opcodes) : ∃ i, op = opcode i := by
  have hmap : opcodes = [Instr.crcInit, .crcByte 0#8, .encode, .fbClear, .fbPush 0#8, .decode, .syncStart,
    .syncByte 0#8, .syncAbort].map opcode := rfl
  rw [hmap, List.mem_map] at h
  obtain ⟨i, -, hi⟩ := h
  exact ⟨i, hi.symm⟩

theorem notMem_opcodes_iff (op : Byte) : op ∉ opcodes ↔ ∀ i, op ≠ opcode i := by
  constructor
  · rintro h i rfl
    exact h (opcode_mem_opcodes i)
  · intro h hm
    obtain ⟨i, hi⟩ := exists_opcode_eq_of_mem_opcodes hm
    exact h i hi

/-- A masked word that is the word of no assigned opcode has RSV not 0 or an unassigned OP. -/
theorem illegal_of_and_selectionMask_notMem {v : Word}
    (h : v &&& 0xFFFF00FF#32 ∉ opcodes.map (commandWord · 0#8)) : rsvOf v ≠ 0#16 ∨ opOf v ∉ opcodes := by
  by_contra hc
  push Not at hc
  obtain ⟨hr, ho⟩ := hc
  have hw : v &&& 0xFFFF00FF#32 = commandWord (opOf v) 0#8 :=
    (and_selectionMask_eq_commandWord_iff v (opOf v)).2 ⟨hr, rfl⟩
  exact h (List.mem_map.2 ⟨opOf v, ho, hw.symm⟩)

theorem fieldsWord_decode_eq_error_iff (rsv : Half) (b op : Byte) :
    (∃ r, decode (fieldsWord rsv b op) = .error r) ↔ rsv ≠ 0#16 ∨ op ∉ opcodes := by
  rw [decode_eq_error_iff, rsvOf_fieldsWord, opOf_fieldsWord, notMem_opcodes_iff]

theorem exists_decode_eq_ok_iff (v : Word) : (∃ i, decode v = .ok i) ↔ ¬∃ r, decode v = .error r := by
  cases decode v <;> simp

end Sys2Proof.Machine
end

section
/-! SUPPORT. What the decoder reads from the encoder's words (spec/30_encoding.md R80, R94). -/

namespace Sys2Proof.Machine

theorem encode_eq_commandWord (i : Instr) : encode i = commandWord (opcode i) ((byteOperand i).getD 0#8) := by
  cases i <;> rfl

/-- By the fields of the encoder's word. -/
theorem decode_encode (i : Instr) : decode (encode i) = .ok i := by
  obtain ⟨hr, ho, hb⟩ := Laws.EncodeShape.of_commandWord i (encode_eq_commandWord i)
  exact (decode_eq_ok_iff _ _).2 ⟨hr, ho, fun b hi => by rw [hb, hi]; rfl⟩

/-- The table question at 32 bits is the decoder's answer. -/
theorem decodeTableWord_toNat {v : Word} {i : Instr} (h : decode v = .ok i) :
    decodeTableWord 32 v.toNat = some i := by
  have hv : BitVec.ofNat 32 (v.toNat % 2 ^ 32) = v := by
    rw [Nat.mod_eq_of_lt v.isLt, BitVec.ofNat_toNat, BitVec.setWidth_eq]
  rw [decodeTableWord, if_pos le_rfl, hv, h]

/-- The word the encoder gives a command is read back as it. -/
theorem encode_and_decode {i : Instr} {w : Word} (h : encode i = w) : encode i = w ∧ decode w = .ok i :=
  ⟨h, h ▸ decode_encode i⟩

end Sys2Proof.Machine
end

section
/-! SUPPORT. The statements about the encoding of commands. -/

namespace Sys2Proof.Machine

/-- Settles O2: the word's fields are the command's, and the table question asks the decoder. -/
theorem decodeOfEncodeIsTheCommand : Obligations.DecodeOfEncodeIsTheCommand :=
  fun i _ => ⟨decode_encode i, decodeTableWord_toNat (decode_encode i)⟩

/-- Settles O3: the masked word is RSV and OP, which are all the decoder selects by. -/
theorem decoderSelectsByMaskedWord : Obligations.DecoderSelectsByMaskedWord := by
  refine fun v s => ⟨fun i => ?_, fun h => ?_⟩
  · cases i with
    | crcByte b => exact decode_eq_ok_iff_of_byteOperand_eq_some v (op := 0x02#8) rfl rfl
    | fbPush b => exact decode_eq_ok_iff_of_byteOperand_eq_some v (op := 0x21#8) rfl rfl
    | syncByte b => exact decode_eq_ok_iff_of_byteOperand_eq_some v (op := 0x31#8) rfl rfl
    | crcInit | encode | fbClear | decode | syncStart | syncAbort =>
      exact decode_eq_ok_iff_of_byteOperand_eq_none v rfl
  · refine runCommand_illegal s ?_
    rw [← notMem_opcodes_iff]
    exact illegal_of_and_selectionMask_notMem h

/-- Settles O4: RSV and OP of such a word are as given, and what is not rejected is accepted. -/
theorem illegalWordsAreExactly : Obligations.IllegalWordsAreExactly := by
  refine fun rsv b b' op s => ⟨fieldsWord_decode_eq_error_iff rsv b op, fun h => ?_, ?_⟩
  · exact runCommand_illegal s ((decode_eq_error_iff _).1 ((fieldsWord_decode_eq_error_iff rsv b op).2 h))
  · rw [exists_decode_eq_ok_iff, exists_decode_eq_ok_iff, fieldsWord_decode_eq_error_iff,
      fieldsWord_decode_eq_error_iff]

/-- Settles O1: the words by evaluating the encoder, their decoding by `decode_encode`. -/
theorem commandWordsAreTheSpecs : Obligations.CommandWordsAreTheSpecs :=
  fun _ => ⟨encode_and_decode rfl, encode_and_decode rfl, encode_and_decode rfl, encode_and_decode rfl,
    encode_and_decode rfl, encode_and_decode rfl, encode_and_decode rfl, encode_and_decode rfl,
    encode_and_decode rfl⟩

end Sys2Proof.Machine
end

section
/-! SUPPORT. The CRC loop as an iteration, and two bytes fed in a row as one run of it over their 16-bit number
(spec/40_crc.md R101, R103). -/

namespace Sys2Proof.Machine

theorem crcShifts_eq_iterate (n : Nat) : crcShifts n = crcShift^[n] := by
  induction n with
  | zero => rfl
  | succ n ih => rw [Function.iterate_succ, ← ih]; rfl

/-- While every bit shifted out is 0, the loop is a plain shift: the polynomial never comes in. -/
theorem crcShifts_of_low_zero (n : Nat) (x : Half) (h : ∀ i, i < n → x.getLsbD i = false) :
    crcShifts n x = x >>> n := by
  induction n generalizing x with
  | zero => simp [crcShifts]
  | succ n ih =>
    have hturn : crcShift x = x >>> 1 := if_neg (by rw [h 0 (Nat.succ_pos n)]; decide)
    have hlow : ∀ i, i < n → (x >>> 1).getLsbD i = false := fun i hi => by
      rw [BitVec.getLsbD_ushiftRight]
      exact h (1 + i) (by omega)
    calc crcShifts (n + 1) x = crcShifts n (x >>> 1) := congrArg (crcShifts n) hturn
      _ = x >>> 1 >>> n := ih _ hlow
      _ = x >>> (n + 1) := by rw [← BitVec.shiftRight_add, Nat.add_comm]

/-- Eight turns carry a byte from the upper half down to the lower. -/
theorem crcShifts_eight_upperByte (b : Byte) : crcShifts 8 (b.setWidth 16 <<< 8) = b.setWidth 16 := by
  rw [crcShifts_of_low_zero 8 _ fun i hi => by simp [hi]]
  apply BitVec.eq_of_getLsbD_eq
  intro i hi
  by_cases h8 : i < 8
  · have h16 : 8 + i < 16 := by omega
    simp [h8, hi, h16]
  · have hb : b.getLsbD i = false := BitVec.getLsbD_of_ge _ _ (by omega)
    simp [hb]

/-- The two bytes of a 16-bit number do not overlap. -/
theorem halfLE_eq_xor (lo hi : Byte) : halfLE lo hi = lo.setWidth 16 ^^^ hi.setWidth 16 <<< 8 := by
  apply BitVec.eq_of_getLsbD_eq
  intro i hi
  by_cases h8 : i < 8
  · simp [halfLE, h8]
  · have hb : lo.getLsbD i = false := BitVec.getLsbD_of_ge _ _ (by omega)
    simp [halfLE, hb]

/-- A 16-bit number's bytes, low byte first, make it again. -/
theorem halfLE_extract (h : Half) : halfLE (h.extractLsb' 0 8) (h.extractLsb' 8 8) = h := by
  apply BitVec.eq_of_getLsbD_eq
  intro i hi
  by_cases h8 : i < 8
  · simp [halfLE, h8, hi]
  · have e : 8 + (i - 8) = i := by omega
    have h8' : i - 8 < 8 := by omega
    simp [halfLE, h8, hi, e, h8']

/-- Two bytes fed in a row are their 16-bit number fed at once, with twice the turns. -/
theorem crcStep_crcStep (acc : Half) (lo hi : Byte) :
    crcStep (crcStep acc lo) hi = crcShifts 8 (crcShifts 8 (acc ^^^ halfLE lo hi)) := by
  have hmerge : crcStep acc lo ^^^ hi.setWidth 16 = crcShifts 8 (acc ^^^ halfLE lo hi) := by
    rw [halfLE_eq_xor, ← BitVec.xor_assoc, crcShifts_xor, crcShifts_eight_upperByte, crcStep]
  rw [crcStep, hmerge]

theorem crcShifts_eq_zero_iff (n : Nat) (x : Half) : crcShifts n x = 0#16 ↔ x = 0#16 := by
  rw [← (crcShifts_injective n).eq_iff (a := x), crcShifts_zero]

/-- Two bytes bring the accumulator to 0 exactly if they are its own, low byte first. -/
theorem crcStep_crcStep_eq_zero_iff (acc : Half) (lo hi : Byte) :
    crcStep (crcStep acc lo) hi = 0#16 ↔ acc = halfLE lo hi := by
  rw [crcStep_crcStep, crcShifts_eq_zero_iff, crcShifts_eq_zero_iff, BitVec.xor_eq_zero_iff]

theorem crc16_append_pair (body : List Byte) (lo hi : Byte) :
    crc16 (body ++ [lo, hi]) = crcStep (crcStep (crc16 body) lo) hi := by
  simp [crc16]

/-- The frame made of a list of bytes and its CRC, low byte first, has a valid CRC. -/
theorem crcOk_append_crc16 (body : List Byte) :
    crcOk (body ++ [(crc16 body).extractLsb' 0 8, (crc16 body).extractLsb' 8 8]) = true := by
  rw [crcOk_append, halfLE_extract, beq_self_eq_true]

end Sys2Proof.Machine
end

section
/-! SUPPORT. The CRC accumulator: which commands write it, what a run of commands makes of it, and that no other command
reads it (spec/40_crc.md R106, R107). -/

namespace Sys2Proof.Machine

/-! ### What a command does to ACC -/

/-- A command but CRC_INIT feeds ACC the byte it has for it, if any. -/
theorem ExecNext.acc_eq_foldl {i : Instr} {s t : State} (h : ExecNext i s t) (hinit : i ≠ .crcInit) :
    t.acc = (crcOperand i).toList.foldl crcStep s.acc := by
  cases h with
  | crcInit => exact absurd rfl hinit
  | crcByte b => rfl
  | seqActive _ _ hi => obtain rfl | ⟨b, rfl⟩ | rfl := hi <;> rfl
  | _ => simp [crcOperand]

theorem crcOperand_eq_none {i : Instr} (hbyte : ∀ b, i ≠ .crcByte b) : crcOperand i = none := by
  cases i with
  | crcByte b => exact absurd rfl (hbyte b)
  | _ => rfl

theorem ExecNext.acc_eq {i : Instr} {s t : State} (h : ExecNext i s t) (hinit : i ≠ .crcInit)
    (hbyte : ∀ b, i ≠ .crcByte b) : t.acc = s.acc := by
  rw [h.acc_eq_foldl hinit, crcOperand_eq_none hbyte]
  rfl

/-! ### What a run of commands does to ACC -/

/-- A run of commands that goes through begins with a command that has a next state, and goes on from there. -/
theorem exists_of_execAll_cons_eq_next {i : Instr} {is : List Instr} {s t : State}
    (h : execAll (i :: is) s = .next t) : ∃ u, exec i s = .next u ∧ execAll is u = .next t := by
  cases he : exec i s with
  | next u => exact ⟨u, rfl, by rw [← execAll_cons is he, h]⟩
  | fault r => simp [execAll, he] at h
  | refused r => simp [execAll, he] at h

/-- One CRC_BYTE for each byte of a list does nothing but fold the list into ACC. -/
theorem execAll_map_crcByte (bytes : List Byte) (s : State) :
    execAll (bytes.map Instr.crcByte) s = .next { s with acc := bytes.foldl crcStep s.acc } := by
  induction bytes generalizing s with
  | nil => rfl
  | cons b bytes ih => exact ih { s with acc := crcStep s.acc b }

/-- Any commands but CRC_INIT fold the bytes that their CRC_BYTEs feed into ACC. -/
theorem execAll_acc_eq_foldl {is : List Instr} {s t : State} (hinit : Instr.crcInit ∉ is)
    (h : execAll is s = .next t) : t.acc = (is.filterMap crcOperand).foldl crcStep s.acc := by
  induction is generalizing s with
  | nil => cases h; rfl
  | cons i is ih =>
    obtain ⟨hi, his⟩ := List.ne_and_not_mem_of_not_mem_cons hinit
    obtain ⟨u, hu, hrest⟩ := exists_of_execAll_cons_eq_next h
    have hacc := (exec_eq_next_iff.1 hu).acc_eq_foldl hi.symm
    rw [ih his hrest, hacc]
    cases ho : crcOperand i <;> simp [ho]

/-! ### The other commands do not read ACC -/

theorem recordDecode_withAcc (r : FrameResult) (s : State) (a : Half) :
    recordDecode r { s with acc := a } = { recordDecode r s with acc := a } := by
  cases r <;> rfl

/-- No guard of the other commands' next states speaks of ACC, and none of these states depends on it but in ACC. -/
theorem ExecNext.withAcc {i : Instr} {s t : State} (h : ExecNext i s t) (hinit : i ≠ .crcInit)
    (hbyte : ∀ b, i ≠ .crcByte b) (a : Half) : ExecNext i { s with acc := a } { t with acc := a } := by
  cases h with
  | crcInit => exact absurd rfl hinit
  | crcByte b => exact absurd rfl (hbyte b)
  | seqIdle b _ ha => exact .seqIdle b _ ha
  | decode _ f ha hf => exact recordDecode_withAcc _ s a ▸ .decode { s with acc := a } f ha hf
  | _ => constructor <;> assumption

theorem ExecFault.withAcc {i : Instr} {s : State} {r : Fault} (h : ExecFault i s r) (a : Half) :
    ExecFault i { s with acc := a } r := by
  cases h <;> constructor <;> assumption

theorem exec_withAcc {i : Instr} (hinit : i ≠ .crcInit) (hbyte : ∀ b, i ≠ .crcByte b) (s : State) (a : Half) :
    exec i { s with acc := a } = mapNext (fun t => { t with acc := a }) (exec i s) := by
  rcases exec_cases i s with ⟨t, he, hn⟩ | ⟨r, he, hf⟩
  · rw [he]
    exact exec_eq_next_iff.2 (hn.withAcc hinit hbyte a)
  · rw [he]
    exact exec_eq_fault_iff.2 (hf.withAcc a)

/-! ### Command words -/

/-- A word with RSV not 0 raises ILL, whatever its B and OP (60_exceptions.md R182, check 1). -/
theorem runCommand_of_reserved_ne_zero {rsv : Half} (h : rsv ≠ 0#16) (b op : Byte) (s : State) :
    runCommand (fieldsWord rsv b op) s = .next { s with errIll := true } :=
  runCommand_illegal s (.inl (by rwa [rsvOf_fieldsWord]))

end Sys2Proof.Machine
end

section
/-! SUPPORT. The statements about the CRC engine (spec/40_crc.md). -/

namespace Sys2Proof.Machine

/-- Settles O21: `crcShifts` is the iteration of one turn. -/
theorem crcStepIsEightShiftsOfTheXor : Obligations.CrcStepIsEightShiftsOfTheXor :=
  fun acc b => congrFun (crcShifts_eq_iterate 8) (acc ^^^ b.setWidth 16)

/-- Settles O22: a fold from the left over an appended byte. -/
theorem crc16FoldsFromTheSeed : Obligations.Crc16FoldsFromTheSeed :=
  ⟨rfl, crc16_append_singleton⟩

/-- Settles O23, on the frame written as its body and its last two bytes. -/
theorem crcOkComparesTheTrailingBytes : Obligations.CrcOkComparesTheTrailingBytes := by
  intro f hf
  obtain ⟨body, lo, hi, rfl⟩ := exists_eq_append_pair f hf
  exact ⟨lo, hi, by simp, by simp, by simp [crcOk_append, halfLE]⟩

/-- Settles O24: the last two bytes bring the body's CRC to 0 exactly if they are that CRC. -/
theorem validFramesLeaveResidueZero : Obligations.ValidFramesLeaveResidueZero := by
  intro f hf
  obtain ⟨body, lo, hi, rfl⟩ := exists_eq_append_pair f hf
  rw [crcOk_append, beq_iff_eq, crc16_append_pair, crcStep_crcStep_eq_zero_iff]

/-- Settles O25: the decoder reads the word as CRC_INIT whatever its B. -/
theorem crcInitSeedsTheAccumulator : Obligations.CrcInitSeedsTheAccumulator :=
  fun _ _ b => ⟨rfl, runCommand_fieldsWord (i := .crcInit) rfl nofun,
    fun h => runCommand_of_reserved_ne_zero h b _ _⟩

/-- Settles O26: the decoder reads the word as CRC_BYTE of its B; the corner values by evaluation. -/
theorem crcByteFeedsOneByte : Obligations.CrcByteFeedsOneByte :=
  ⟨fun _ _ b => ⟨rfl, runCommand_fieldsWord (i := .crcByte b) rfl fun _ => Option.some.inj,
    fun h => runCommand_of_reserved_ne_zero h b _ _⟩, by decide, by decide, by decide⟩

/-- Settles O27: ACC folds the bytes fed, from the seed CRC_INIT leaves. -/
theorem streamedCrcIsCrc16 : Obligations.StreamedCrcIsCrc16 :=
  ⟨fun s bytes => execAll_map_crcByte bytes { s with acc := Config.crcSeed },
    fun _ _ _ hinit h => execAll_acc_eq_foldl hinit h, crcOk_append_crc16⟩

/-- Settles O28, by the relations of the commands' next states and faults. -/
theorem onlyCrcCommandsTouchTheAccumulator : Obligations.OnlyCrcCommandsTouchTheAccumulator :=
  fun _ s a hinit hbyte => ⟨exec_withAcc hinit hbyte s a, fun _ h => (exec_eq_next_iff.1 h).acc_eq hinit hbyte⟩

end Sys2Proof.Machine
end

section
/-! SUPPORT. What decode gives for a frame, said once by the frame's bytes (spec/41_frame_codec.md R126 to R131). -/

namespace Sys2Proof.Machine

theorem decodeResponse_of_length_lt {f : List Byte} (c : Half) (h : f.length < 5) :
    decodeResponse f c = .short := by
  unfold decodeResponse
  split
  · exact if_pos h
  · rfl

/-- A frame long enough to decode has a function code and a byte count. -/
theorem exists_fc_and_bc {f : List Byte} (h : 5 ≤ f.length) : ∃ fc bc, f[1]? = some fc ∧ f[2]? = some bc :=
  ⟨f[1], f[2], List.getElem?_eq_getElem _, List.getElem?_eq_getElem _⟩

section
variable {f : List Byte} {fc bc : Byte} (c : Half) (hl : 5 ≤ f.length) (hfc : f[1]? = some fc) (hbc : f[2]? = some bc)
include hl hfc hbc

/-- The checks of a frame that is not short, in their order, by its function code and its byte count. -/
theorem decodeResponse_eq_ite :
    decodeResponse f c =
      if fc.getLsbD 7 then .funcExc bc
      else if crcOk f then .ok (bePairs (extractCount bc f.length) (f.drop 3)) (byteCountWarn bc c)
      else .crcMismatch := by
  match f with
  | _ :: _ :: _ :: rest =>
    cases hfc
    cases hbc
    exact if_neg (Nat.not_lt.2 hl)

theorem decodeResponse_of_excBit (he : fc.getLsbD 7 = true) : decodeResponse f c = .funcExc bc := by
  rw [decodeResponse_eq_ite c hl hfc hbc, if_pos he]

theorem decodeResponse_of_not_crcOk (he : fc.getLsbD 7 = false) (hc : crcOk f = false) :
    decodeResponse f c = .crcMismatch := by
  rw [decodeResponse_eq_ite c hl hfc hbc, he, hc]
  rfl

theorem decodeResponse_of_crcOk (he : fc.getLsbD 7 = false) (hc : crcOk f = true) :
    decodeResponse f c = .ok (bePairs (extractCount bc f.length) (f.drop 3)) (byteCountWarn bc c) := by
  rw [decodeResponse_eq_ite c hl hfc hbc, he, hc]
  rfl

end

/-- What an accepted frame has passed: no check of R126 to R128 applies to it. -/
theorem of_decodeResponse_eq_ok {f : List Byte} {c : Half} {vals : List Half} {warn : Bool}
    (h : decodeResponse f c = .ok vals warn) :
    5 ≤ f.length ∧ crcOk f = true ∧ ∃ fc bc, f[1]? = some fc ∧ f[2]? = some bc ∧ fc.getLsbD 7 = false ∧
      vals = bePairs (extractCount bc f.length) (f.drop 3) := by
  by_cases hl : f.length < 5
  · rw [decodeResponse_of_length_lt c hl] at h
    cases h
  · have hl : 5 ≤ f.length := Nat.not_lt.1 hl
    obtain ⟨fc, bc, hfc, hbc⟩ := exists_fc_and_bc hl
    rw [decodeResponse_eq_ite c hl hfc hbc] at h
    split_ifs at h with he hc
    exact ⟨hl, hc, fc, bc, hfc, hbc, by simpa using he, (FrameResult.ok.inj h).1.symm⟩

/-- The values of a frame: as many as R130 says, each from its two bytes after the byte count, high byte first. -/
theorem bePairs_extractCount_spec {f : List Byte} (bc : Byte) (h : 5 ≤ f.length) :
    (bePairs (extractCount bc f.length) (f.drop 3)).length = min bc.toNat (f.length - 5) / 2 ∧
    ∀ j, j < min bc.toNat (f.length - 5) / 2 → ∃ x y, f[3 + 2 * j]? = some x ∧ f[4 + 2 * j]? = some y ∧
      (bePairs (extractCount bc f.length) (f.drop 3))[j]? = some (halfBE x y) := by
  have hk : 2 * extractCount bc f.length ≤ (f.drop 3).length := by
    rw [List.length_drop, extractCount, Config.minFrame]
    omega
  obtain ⟨hlen, hget⟩ := bePairs_spec _ _ hk
  refine ⟨hlen, fun j hj => ?_⟩
  obtain ⟨x, y, hx, hy, hv⟩ := hget j hj
  rw [List.getElem?_drop] at hx hy
  exact ⟨x, y, hx, by rwa [← Nat.add_assoc, Nat.add_right_comm] at hy, hv⟩

theorem byteCountWarn_eq_true_iff (bc : Byte) (c : Half) : byteCountWarn bc c = true ↔ bc.toNat ≠ 2 * c.toNat := by
  simp [byteCountWarn]

/-- A byte never counts 256 bytes or more (41_frame_codec.md R129). -/
theorem byteCountWarn_of_le (bc : Byte) {c : Half} (h : 128 ≤ c.toNat) : byteCountWarn bc c = true := by
  have hbc := bc.isLt
  exact (byteCountWarn_eq_true_iff bc c).2 (by omega)

/-- A request is its PDU and the PDU's CRC, low byte first (41_frame_codec.md R121). -/
theorem toList_encodeRequest (a fc : Byte) (st c : Half) :
    (encodeRequest a fc st c).toList = requestPdu a fc st c ++
      [(crc16 (requestPdu a fc st c)).extractLsb' 0 8, (crc16 (requestPdu a fc st c)).extractLsb' 8 8] := rfl

end Sys2Proof.Machine
end

section
/-! SUPPORT. The CRC under a change of one byte, and a flipped bit in a frame (spec/41_frame_codec.md R137). -/

namespace Sys2Proof.Machine

/-- With the byte fixed, crc_step loses no bit of the accumulator. -/
theorem crcStep_injective_acc (b : Byte) : Function.Injective (crcStep · b) :=
  fun _ _ h => (BitVec.xor_left_inj _).1 (crcShifts_injective 8 h)

/-- With the accumulator fixed, crc_step loses no bit of the byte. -/
theorem crcStep_injective_byte (acc : Half) : Function.Injective (crcStep acc) := by
  intro x y h
  have hw : x.setWidth 16 = y.setWidth 16 := (BitVec.xor_right_inj _).1 (crcShifts_injective 8 h)
  simpa using congrArg (BitVec.setWidth 8) hw

theorem foldl_crcStep_injective (f : List Byte) : Function.Injective (f.foldl crcStep ·) := by
  induction f with
  | nil => exact fun _ _ h => h
  | cons b f ih => exact fun _ _ h => crcStep_injective_acc b (ih h)

/-- A change of any one byte changes the CRC: the accumulators differ after that byte and stay different. -/
theorem foldl_crcStep_modify_ne {g : Byte → Byte} (hg : ∀ b, g b ≠ b) {f : List Byte} {i : Nat}
    (hi : i < f.length) (acc : Half) : (f.modify i g).foldl crcStep acc ≠ f.foldl crcStep acc := by
  induction f generalizing i acc with
  | nil => exact absurd hi (Nat.not_lt_zero i)
  | cons b f ih =>
    cases i with
    | zero => exact fun h => hg b (crcStep_injective_byte acc (foldl_crcStep_injective f h))
    | succ i => exact ih (Nat.lt_of_succ_lt_succ hi) (crcStep acc b)

theorem oneBit_ne_zero {j : Nat} (hj : j < 8) : 0x01#8 <<< j ≠ 0#8 := by
  intro h
  have hb := congrArg (·.getLsbD j) h
  simp [hj] at hb

theorem length_flipBit (f : List Byte) (i j : Nat) : (flipBit f i j).length = f.length := List.length_modify ..

theorem getElem?_flipBit_same {f : List Byte} {i : Nat} {b : Byte} (j : Nat) (h : f[i]? = some b) :
    (flipBit f i j)[i]? = some (b ^^^ (0x01#8 <<< j)) := by
  simp [flipBit, h]

theorem getElem?_flipBit_other (f : List Byte) {i k : Nat} (j : Nat) (h : i ≠ k) : (flipBit f i j)[k]? = f[k]? := by
  simp [flipBit, h]

/-- No flip of one bit leaves a valid CRC valid: a valid frame's CRC, its own two bytes included, is 0. -/
theorem crcOk_flipBit {f : List Byte} {i j : Nat} (hlen : 2 ≤ f.length) (hok : crcOk f = true) (hi : i < f.length)
    (hj : j < 8) : crcOk (flipBit f i j) = false := by
  have hzero : crc16 f = 0#16 := (validFramesLeaveResidueZero f hlen).1 hok
  have hne : crc16 (flipBit f i j) ≠ crc16 f :=
    foldl_crcStep_modify_ne (fun b h => oneBit_ne_zero hj (by simpa using h)) hi _
  rw [← Bool.not_eq_true, validFramesLeaveResidueZero _ (by rwa [length_flipBit]), ← hzero]
  exact hne

/-- A flip touches the exception bit only where it flips bit 7 of byte 1. -/
theorem exists_fc_flipBit {f : List Byte} {fc : Byte} (hfc : f[1]? = some fc) {i j : Nat} (hj : j < 8)
    (hij : ¬(i = 1 ∧ j = 7)) : ∃ fc', (flipBit f i j)[1]? = some fc' ∧ fc'.getLsbD 7 = fc.getLsbD 7 := by
  by_cases h1 : i = 1
  · subst h1
    have h7 : j < 7 := by omega
    refine ⟨_, getElem?_flipBit_same j hfc, ?_⟩
    have hb : (0x01#8 <<< j).getLsbD 7 = false := by simp [Nat.sub_ne_zero_of_lt h7]
    rw [BitVec.getLsbD_xor, hb, Bool.xor_false]
  · exact ⟨fc, by rw [getElem?_flipBit_other f j h1, hfc], rfl⟩

end Sys2Proof.Machine
end

section
/-! SUPPORT. The frame codec's commands: outside a search, in one, and as command words (spec/41_frame_codec.md). -/

namespace Sys2Proof.Machine

/-- A frame command in a search sets ERR.SEQ and nothing else (60_exceptions.md R184). -/
theorem exec_eq_seq {i : Instr} {s : State} (hi : i = .fbClear ∨ (∃ b, i = .fbPush b) ∨ i = .decode)
    (hs : s.sync ∈ [SyncState.hunt, .count, .payload]) : exec i s = .next { s with errSeq := true } :=
  exec_eq_next_iff.2 (.seqActive i s hi ((SyncState.active_iff _).2 hs))

/-- A list written from entry 0 on is what these entries hold, and the others keep their contents. -/
theorem Memory.read_writeList_zero {w : Nat} (vs : List (BitVec w)) (m : Memory w) (j : Nat) :
    Memory.read (Memory.writeList m 0 vs) j = if j < vs.length then vs[j]? else Memory.read m j := by
  simp [Memory.read_writeList]

/-- DECODE outside a search, every byte below FB_LEN written: it decodes exactly those bytes. -/
theorem exists_exec_decode_eq {s : State} (hs : s.sync ∉ [SyncState.hunt, .count, .payload])
    (hw : ∀ i, i < s.fbLen → (s.fb.read i).isSome) :
    ∃ f, f.length = s.fbLen ∧ (∀ i, i < s.fbLen → s.fb.read i = f[i]?) ∧
      exec .decode s = .next (recordDecode (decodeResponse f s.reqCount) s) := by
  obtain ⟨f, hf⟩ := Memory.readSpan_of_written s.fb s.fbLen 0 fun i hi => by simpa using hw i hi
  obtain ⟨hlen, hget⟩ := (Memory.readSpan_eq_some ..).1 hf
  exact ⟨f, hlen, fun i hi => by simpa using hget i hi,
    exec_eq_next_iff.2 (.decode s f ((SyncState.not_active_iff _).2 hs) hf)⟩

end Sys2Proof.Machine
end

section
/-! SUPPORT. The statements about the frame codec (spec/41_frame_codec.md). -/

namespace Sys2Proof.Machine

/-- Settles O29: the frame by evaluation, the command by its arm. -/
theorem encodeBuildsTheRequestFrame : Obligations.EncodeBuildsTheRequestFrame :=
  ⟨toList_encodeRequest, fun _ _ b => ⟨rfl, runCommand_fieldsWord (i := .encode) rfl nofun,
    fun h => runCommand_of_reserved_ne_zero h b _ _⟩⟩

/-- Settles O30, by its next states outside and in a search. -/
theorem fbClearEmptiesTheBuffer : Obligations.FbClearEmptiesTheBuffer :=
  fun s _ b => ⟨fun hs => exec_eq_next_iff.2 (.fbClear s ((SyncState.not_active_iff _).2 hs)),
    exec_eq_seq (.inl rfl), runCommand_fieldsWord rfl nofun, fun h => runCommand_of_reserved_ne_zero h b _ _⟩

/-- Settles O31: the byte is written at FB[FB_LEN], and a read after a write sees it there and nowhere else. -/
theorem fbPushAppendsOneByte : Obligations.FbPushAppendsOneByte := by
  refine fun s _ b _ => ⟨fun hs hl => ?_, fun hs hl => ?_, exec_eq_seq (.inr (.inl ⟨b, rfl⟩)),
    runCommand_fieldsWord rfl fun _ => Option.some.inj, fun h => runCommand_of_reserved_ne_zero h b _ _⟩
  · exact ⟨_, exec_eq_next_iff.2 (.fbPush b s ((SyncState.not_active_iff _).2 hs) hl), rfl,
      Memory.read_write_same .., fun _ ha => Memory.read_write_other _ b ha⟩
  · exact exec_eq_next_iff.2 (.ovf b s ((SyncState.not_active_iff _).2 hs) hl)

/-- Settles O32: each check by the equation of decode, the CRC's by its last two bytes. -/
theorem decodeResponseFollowsTheRules : Obligations.DecodeResponseFollowsTheRules := by
  refine fun f c => ⟨decodeResponse_of_length_lt c, fun hl => ?_⟩
  obtain ⟨fc, bc, hfc, hbc⟩ := exists_fc_and_bc hl
  obtain ⟨lo, hi, hlo, hhi, hcrc⟩ := crcOkComparesTheTrailingBytes f (by omega)
  obtain ⟨hlen, hvals⟩ := bePairs_extractCount_spec bc hl
  refine ⟨fc, bc, lo, hi, hfc, hbc, hlo, hhi, decodeResponse_of_excBit c hl hfc hbc, fun he hc => ?_,
    fun he hc => ?_⟩
  · exact decodeResponse_of_not_crcOk c hl hfc hbc he (by rwa [← Bool.not_eq_true, hcrc])
  · exact ⟨_, _, decodeResponse_of_crcOk c hl hfc hbc he (hcrc.2 hc), byteCountWarn_eq_true_iff bc c,
      byteCountWarn_of_le bc, hlen, fun j hj => hvals j (hlen ▸ hj)⟩

/-- Settles O33: the last value's two bytes lie within the bytes counted, which end before the CRC. -/
theorem decodedValuesStayInBounds : Obligations.DecodedValuesStayInBounds := by
  intro f c vals warn hcap h
  obtain ⟨hl, -, fc, bc, -, -, -, rfl⟩ := of_decodeResponse_eq_ok h
  have hlen := (bePairs_extractCount_spec bc hl).1
  have hmax := decodeResponse_values_length h
  exact ⟨by omega, hmax, fun j hj => by omega⟩

/-- Settles O34, by the outcomes of decode on the bytes of FB. -/
theorem decodeRecordsTheOutcome : Obligations.DecodeRecordsTheOutcome := by
  refine fun s _ b hw => ⟨fun hs => ?_, exec_eq_seq (.inr (.inr rfl)), runCommand_fieldsWord rfl nofun,
    fun h => runCommand_of_reserved_ne_zero h b _ _⟩
  obtain ⟨f, hlen, hget, he⟩ := exists_exec_decode_eq hs hw
  refine ⟨f, _, hlen, hget, he, ?_⟩
  cases decodeResponse f s.reqCount with
  | ok vals warn =>
    exact ⟨rfl, Memory.read_writeList_zero vals s.values⟩
  | short | funcExc | crcMismatch => rfl

/-- Settles O36: the byte count read is the start's high byte, and an encoded request's CRC is valid. -/
theorem encodedRequestsDecode : Obligations.EncodedRequestsDecode := by
  intro a fc st c c'
  have hl : 5 ≤ (encodeRequest a fc st c).toList.length := by simp
  have hcrc : crcOk (encodeRequest a fc st c).toList = true := crcOk_append_crc16 (requestPdu a fc st c)
  exact ⟨fun he => ⟨_, _, decodeResponse_of_crcOk c' hl rfl rfl he hcrc, (bePairs_extractCount_spec _ hl).1⟩,
    decodeResponse_of_excBit c' hl rfl rfl⟩

/-- Settles O37: a flip of the exception bit shows by R127, and any other by the CRC. -/
theorem singleBitFlipsAreDetected : Obligations.SingleBitFlipsAreDetected := by
  intro f c vals warn i j h hi hj
  obtain ⟨hl, hok, fc, bc, hfc, hbc, he, -⟩ := of_decodeResponse_eq_ok h
  have hl' : 5 ≤ (flipBit f i j).length := by rwa [length_flipBit]
  refine ⟨fun hij => ?_, fun hij => ?_⟩
  · obtain ⟨rfl, rfl⟩ := hij
    have hbc' : (flipBit f 1 7)[2]? = some bc := by rw [getElem?_flipBit_other f 7 (by decide), hbc]
    have he' : (fc ^^^ 0x01#8 <<< 7).getLsbD 7 = true := by
      rw [BitVec.getLsbD_xor, he]
      rfl
    exact ⟨bc, hbc, decodeResponse_of_excBit c hl' (getElem?_flipBit_same 7 hfc) hbc' he'⟩
  · obtain ⟨fc', hfc', he'⟩ := exists_fc_flipBit hfc hj hij
    obtain ⟨-, bc', -, hbc'⟩ := exists_fc_and_bc hl'
    exact decodeResponse_of_not_crcOk c hl' hfc' hbc' (he'.trans he) (crcOk_flipBit (by omega) hok hi hj)

/-- Settles O38: a synchronized frame has its whole length and MARKER_FC, whose bit 7 is clear. -/
theorem synchronizedFramesAreNeverShortOrException : Obligations.SynchronizedFramesAreNeverShortOrException := by
  intro s h hs
  obtain ⟨⟨bc, hbc, hlen⟩, -, hfc⟩ := h.in_done hs
  obtain ⟨f, hflen, hget, hexec⟩ := exists_exec_decode_eq (by simp [hs]) h.fb_written
  refine ⟨_, hexec, ?_⟩
  rw [hget _ (by omega)] at hfc hbc
  have hl : 5 ≤ f.length := by omega
  cases hc : crcOk f with
  | true => exact .inl (by rw [decodeResponse_of_crcOk _ hl hfc hbc rfl hc]; rfl)
  | false => exact .inr (by rw [decodeResponse_of_not_crcOk _ hl hfc hbc rfl hc]; rfl)

end Sys2Proof.Machine
end

section
/-! SUPPORT. A PAYLOAD byte in states of the invariant, and that REQ_FC has no part in any command but ENCODE
(spec/42_stream_sync.md R159, R162). -/

namespace Sys2Proof.Machine

/-- In PAYLOAD a byte is still to come and FB has room for it (10_state.md R45 item 5: FB_LEN + REMAIN ≤ 260). -/
theorem BlockInv.payload_room {s : State} (h : BlockInv s) (hs : s.sync = .payload) :
    s.remain ≠ 0 ∧ s.fbLen < 260 := by
  obtain ⟨-, bc, -, hsum⟩ := h.in_payload hs
  obtain ⟨hpos, -⟩ := h.payload_marker hs
  have hbc := bc.isLt
  omega

/-- In a state of the invariant a PAYLOAD byte is always stored. -/
theorem BlockInv.execNext_payload {s : State} (h : BlockInv s) (hs : s.sync = .payload) (b : Byte) :
    ExecNext (.syncByte b) s { s with
      fb := s.fb.write s.fbLen b, fbLen := s.fbLen + 1, remain := s.remain - 1
      sync := if s.remain - 1 = 0 then .done else .payload } :=
  .payload b s hs (h.payload_room hs).1 (h.payload_room hs).2

theorem SyncState.not_active_of_outside {x : SyncState} (h : x = .idle ∨ x = .done ∨ x = .fail) :
    x.active = false := by
  rcases h with rfl | rfl | rfl <;> rfl

/-! ### REQ_FC (R162) -/

theorem recordDecode_withReqFc (r : FrameResult) (s : State) (fc : Byte) :
    recordDecode r { s with reqFc := fc } = { recordDecode r s with reqFc := fc } := by
  cases r <;> rfl

/-- No guard of the commands' next states speaks of REQ_FC, and of these states only ENCODE's depends on it. -/
theorem ExecNext.withReqFc {i : Instr} {s t : State} (h : ExecNext i s t) (hne : i ≠ .encode) (fc : Byte) :
    ExecNext i { s with reqFc := fc } { t with reqFc := fc } := by
  cases h with
  | encode => exact absurd rfl hne
  | seqIdle b _ ha => exact .seqIdle b _ ha
  | decode _ f ha hf => exact recordDecode_withReqFc _ s fc ▸ .decode { s with reqFc := fc } f ha hf
  | _ => constructor <;> assumption

theorem ExecFault.withReqFc {i : Instr} {s : State} {r : Fault} (h : ExecFault i s r) (fc : Byte) :
    ExecFault i { s with reqFc := fc } r := by
  cases h <;> constructor <;> assumption

theorem exec_withReqFc {i : Instr} (hne : i ≠ .encode) (s : State) (fc : Byte) :
    exec i { s with reqFc := fc } = mapNext (fun t => { t with reqFc := fc }) (exec i s) := by
  rcases exec_cases i s with ⟨t, he, hn⟩ | ⟨r, he, hf⟩
  · rw [he]
    exact exec_eq_next_iff.2 (hn.withReqFc hne fc)
  · rw [he]
    exact exec_eq_fault_iff.2 (hf.withReqFc fc)

/-- Commands executed from a state with another REQ_FC do the same, if none of them is ENCODE. -/
theorem execAll_withReqFc {is : List Instr} (hne : Instr.encode ∉ is) (s : State) (fc : Byte) :
    execAll is { s with reqFc := fc } = mapNext (fun t => { t with reqFc := fc }) (execAll is s) := by
  induction is generalizing s with
  | nil => rfl
  | cons i is ih =>
    obtain ⟨hi, his⟩ := List.ne_and_not_mem_of_not_mem_cons hne
    simp only [execAll, exec_withReqFc hi.symm s fc]
    cases exec i s with
    | next t => exact ih his t
    | fault r | refused r => rfl

end Sys2Proof.Machine
end

section
/-! SUPPORT. The statements about single commands of the synchronizer (spec/42_stream_sync.md). -/

namespace Sys2Proof.Machine

/-- Settles O39, by SYNC_START's arm. -/
theorem syncStartBeginsASearch : Obligations.SyncStartBeginsASearch :=
  fun _ _ b => ⟨rfl, runCommand_fieldsWord rfl nofun, fun h => runCommand_of_reserved_ne_zero h b _ _⟩

/-- Settles O40, by the three next states of a byte in HUNT. -/
theorem huntTakesAByte : Obligations.HuntTakesAByte := by
  intro s b hs
  rw [← markerCompleted_iff, Bool.not_eq_true]
  refine ⟨fun hm => ⟨_, exec_eq_next_iff.2 (.marker b s hs hm), rfl, ?_, Memory.read_write_same .., ?_, ?_⟩,
    fun hm hl => exec_eq_next_iff.2 (.huntFails b s hs hm hl),
    fun hm hl => exec_eq_next_iff.2 (.huntGoesOn b s hs hm hl)⟩
  · exact (Memory.read_write_other _ _ (by decide)).trans (Memory.read_write_same ..)
  · exact fun a h0 h1 => (Memory.read_write_other _ _ h1).trans (Memory.read_write_other _ _ h0)
  · exact fun hl => by simp only; omega

/-- Settles O41: a byte is at most 255, and FB is written at 2. -/
theorem countTakesTheByteCount : Obligations.CountTakesTheByteCount := by
  intro s b hs
  have hb := b.isLt
  exact ⟨_, exec_eq_next_iff.2 (.byteCount b s hs), rfl, by simp, by simp only; omega,
    Memory.read_write_same .., fun a ha => Memory.read_write_other _ _ ha⟩

/-- Settles O42: the invariant gives the byte its room, and holds again when the frame is whole. -/
theorem payloadStoresUntilTheFrameIsWhole : Obligations.PayloadStoresUntilTheFrameIsWhole := by
  intro s b h hs
  have he := h.execNext_payload hs b
  have ht := h.after_execNext he
  refine ⟨_, exec_eq_next_iff.2 he, rfl, Memory.read_write_same .., fun a ha => Memory.read_write_other _ _ ha,
    ht.fbLen_le, fun hd => ?_⟩
  obtain ⟨⟨bc, h2, hlen⟩, h0, h1⟩ := ht.in_done hd
  exact ⟨bc, h0, h1, h2, hlen, ht.fb_written⟩

/-- Settles O43, by SYNC_BYTE's next state outside a search. -/
theorem syncByteOutsideASearchIsRejected : Obligations.SyncByteOutsideASearchIsRejected :=
  fun s b hs => exec_eq_next_iff.2 (.seqIdle b s (SyncState.not_active_of_outside hs))

/-- Settles O44, by SYNC_ABORT's next states in and outside a search. -/
theorem syncAbortFailsASearch : Obligations.SyncAbortFailsASearch :=
  fun s _ b => ⟨fun hs => exec_eq_next_iff.2 (.abort s ((SyncState.active_iff _).2 hs)),
    fun hs => exec_eq_next_iff.2 (.abortIdle s ((SyncState.not_active_iff _).2 hs)),
    runCommand_fieldsWord rfl nofun, fun h => runCommand_of_reserved_ne_zero h b _ _⟩

/-- Settles O45, next state by next state. -/
theorem stateMovesAsTheDiagramSays : Obligations.StateMovesAsTheDiagramSays := by
  intro i s t he
  simp only [← SyncState.active_iff]
  cases exec_eq_next_iff.1 he with
  | crcInit | crcByte | encode | syncStart => rfl
  | decode => simp
  | seqActive _ _ hi ha => obtain rfl | ⟨b, rfl⟩ | rfl := hi <;> simp [ha]
  | seqIdle b _ ha => cases hs : s.sync <;> simp_all [SyncState.active]
  | ovf _ _ _ hl => simp [hl]
  | fbClear _ ha | abort _ ha | abortIdle _ ha => simp [ha]
  | fbPush _ _ ha hl => simp [ha, Nat.ne_of_lt hl]
  | marker b _ hs hm =>
    rw [markerCompleted_iff] at hm
    simp [hs, hm]
  | huntFails b _ hs hm hl =>
    simp only [← markerCompleted_iff, hs, hm]
    simp [hl]
  | huntGoesOn b _ hs hm hl =>
    have hl' : ¬s.huntLen + 1 > 100 := Nat.not_lt.2 hl
    simp only [← markerCompleted_iff, hs, hm]
    simp [hl']
  | byteCount b _ hs => simp [hs]
  | payload b _ hs => simp only [hs, gt_iff_lt, Nat.pos_iff_ne_zero, ne_eq, ite_not]

/-- Settles O46: neither SYNC_START nor SYNC_BYTE is ENCODE. -/
theorem theMarkerIgnoresTheFunctionCode : Obligations.TheMarkerIgnoresTheFunctionCode :=
  fun s fc _ => execAll_withReqFc (by simp) s fc

end Sys2Proof.Machine
end

section
/-! SUPPORT. A search as a run: what SYNC_START and a stream of SYNC_BYTEs lead to, phase by phase
(spec/42_stream_sync.md R152 to R160). -/

namespace Sys2Proof.Machine

theorem feed_append {xs : List Byte} (ys : List Byte) {s t : State} (h : feed xs s = .next t) :
    feed (xs ++ ys) s = feed ys t := by
  rw [feed, List.map_append]
  exact execAll_append _ _ h

theorem feed_singleton (b : Byte) (s : State) : feed [b] s = exec (.syncByte b) s := by
  rw [feed, List.map_singleton, execAll]
  cases exec (.syncByte b) s <;> rfl

/-! ### HUNT -/

/-- The state of a search that SYNC_START began in `s` and that has taken `n` bytes of a stream without a marker. -/
def huntingAfter (stream : List Byte) (n : Nat) (s : State) : State :=
  { s with
    saddr := s.reqAddr, sync := .hunt, huntLen := n, last := (stream.take n).getLastD 0x00#8, noise := 0, remain := 0
    fbLen := 0 }

/-- SYNC_START begins a search that has taken no byte. -/
theorem execAll_syncStart (stream bytes : List Byte) (s : State) :
    execAll (.syncStart :: bytes.map Instr.syncByte) s = feed bytes (huntingAfter stream 0 s) := rfl

theorem getLastD_take_succ {stream : List Byte} {n : Nat} (hn : n < stream.length) (d : Byte) :
    (stream.take (n + 1)).getLastD d = stream[n] := by
  rw [List.take_succ_eq_append_getElem hn, List.getLastD_concat]

/-- The marker test on HUNTLEN and LAST is the marker at the byte's index in the stream (R168). -/
theorem markerCompleted_huntingAfter_iff {stream : List Byte} {n : Nat} (hn : n < stream.length) (s : State) :
    markerCompleted stream[n] (huntingAfter stream n s) = true ↔ markerAt s.reqAddr stream n := by
  rw [markerCompleted_iff, markerAt, List.getElem?_eq_getElem hn, Option.some_inj]
  refine and_congr_right fun hpos => and_congr_left' ?_
  obtain ⟨m, rfl⟩ : ∃ m, n = m + 1 := Nat.exists_eq_add_one.2 hpos
  change (stream.take (m + 1)).getLastD 0x00#8 = s.reqAddr ↔ stream[m]? = some s.reqAddr
  rw [getLastD_take_succ (Nat.lt_of_succ_lt hn), List.getElem?_eq_getElem (Nat.lt_of_succ_lt hn), Option.some_inj]

/-- Feeding one byte more of a stream. -/
theorem feed_take_succ {stream : List Byte} {n : Nat} (hn : n < stream.length) {s t : State}
    (h : feed (stream.take n) s = .next t) : feed (stream.take (n + 1)) s = exec (.syncByte stream[n]) t := by
  rw [List.take_succ_eq_append_getElem hn, feed_append [stream[n]] h, feed_singleton]

section
variable {stream : List Byte} {s : State}

/-- As long as no marker completes and the cap is kept, the search takes every byte. -/
theorem feed_take_keeps_hunting {n : Nat} (hn : n ≤ stream.length) (hcap : n ≤ 100)
    (hm : ∀ i, i < n → ¬markerAt s.reqAddr stream i) :
    feed (stream.take n) (huntingAfter stream 0 s) = .next (huntingAfter stream n s) := by
  induction n with
  | zero => rfl
  | succ n ih =>
    have hb : markerCompleted stream[n] (huntingAfter stream n s) = false := by
      rw [← Bool.not_eq_true, markerCompleted_huntingAfter_iff]
      exact hm n (Nat.lt_succ_self n)
    rw [feed_take_succ hn (ih (by omega) (by omega) fun i hi => hm i (by omega)),
      exec_eq_next_iff.2 (.huntGoesOn _ _ rfl hb hcap)]
    simp only [huntingAfter, getLastD_take_succ hn]

/-- The 101st byte without a marker fails the search (R156). -/
theorem feed_take_hunt_fails (hlen : 101 ≤ stream.length) (hm : ∀ i, i ≤ 100 → ¬markerAt s.reqAddr stream i) :
    feed (stream.take 101) (huntingAfter stream 0 s) =
      .next { huntingAfter stream 100 s with huntLen := 101, last := stream[100], sync := .fail } := by
  have hb : markerCompleted stream[100] (huntingAfter stream 100 s) = false := by
    rw [← Bool.not_eq_true, markerCompleted_huntingAfter_iff]
    exact hm 100 le_rfl
  rw [feed_take_succ hlen (feed_take_keeps_hunting (by omega) le_rfl fun i hi => hm i hi.le)]
  exact exec_eq_next_iff.2 (.huntFails _ _ rfl hb (Nat.lt_succ_self _))

/-- The stream's first marker, completed by its 101st byte at the latest, ends the hunt in COUNT (R155). -/
theorem feed_take_hunt_finds {n : Nat} (hn : n < stream.length) (hcap : n ≤ 100)
    (hm : ∀ i, i < n → ¬markerAt s.reqAddr stream i) (hb : markerAt s.reqAddr stream n) :
    feed (stream.take (n + 1)) (huntingAfter stream 0 s) = .next { huntingAfter stream n s with
      noise := n + 1 - 2, huntLen := n + 1, last := stream[n]
      fb := (s.fb.write 0 s.reqAddr).write 1 0x03#8, fbLen := 2, sync := .count } := by
  rw [feed_take_succ hn (feed_take_keeps_hunting hn.le hcap hm)]
  exact exec_eq_next_iff.2 (.marker _ _ rfl ((markerCompleted_huntingAfter_iff hn s).2 hb))

/-- A hunt that is fed ends within 101 bytes, in COUNT at the stream's first marker or else in FAIL. -/
theorem exists_hunt_end (s : State) (hlen : 101 ≤ stream.length) :
    ∃ n t, n ≤ 101 ∧ feed (stream.take n) (huntingAfter stream 0 s) = .next t ∧
      (t.sync = .count ∨ t.sync = .fail) := by
  classical
  by_cases h : ∃ i, i ≤ 100 ∧ markerAt s.reqAddr stream i
  · obtain ⟨hcap, hb⟩ := Nat.find_spec h
    have hfirst : ∀ i, i < Nat.find h → ¬markerAt s.reqAddr stream i := fun i hi hmi =>
      Nat.find_min h hi ⟨by omega, hmi⟩
    exact ⟨_, _, by omega, feed_take_hunt_finds (by omega) hcap hfirst hb, .inl rfl⟩
  · exact ⟨101, _, le_rfl, feed_take_hunt_fails hlen fun i hi hmi => h ⟨i, hi, hmi⟩, .inr rfl⟩

end

/-! ### COUNT and PAYLOAD -/

/-- In PAYLOAD the REMAIN bytes still to come are stored one after another, and the last completes the frame. -/
theorem feed_payload {bytes : List Byte} (hne : bytes ≠ []) {s : State} (hs : s.sync = .payload)
    (hr : s.remain = bytes.length) (hl : s.fbLen + bytes.length ≤ 260) :
    feed bytes s = .next { s with
      fb := s.fb.writeList s.fbLen bytes, fbLen := s.fbLen + bytes.length, remain := 0, sync := .done } := by
  induction bytes generalizing s with
  | nil => exact absurd rfl hne
  | cons b bytes ih =>
    rw [List.length_cons] at hr hl
    have hstep := exec_eq_next_iff.2 (.payload b s hs (by omega) (by omega))
    rw [feed_cons b bytes hstep]
    simp only [hr, Nat.add_sub_cancel]
    by_cases hnil : bytes = []
    · subst hnil
      rfl
    · have hpos : bytes.length ≠ 0 := by simpa using hnil
      rw [if_neg hpos, ih hnil rfl rfl (by simp only; omega)]
      simp [Memory.writeList, Nat.add_assoc, Nat.add_comm 1]

/-- From COUNT, the byte count and the bytes it announces end the search in DONE; at most 257 follow the byte count. -/
theorem feed_count {bc : Byte} {bytes : List Byte} {s : State} (hs : s.sync = .count)
    (hlen : bytes.length = bc.toNat + 2) :
    feed (bc :: bytes) s = .next { s with
      fb := (s.fb.write 2 bc).writeList 3 bytes, fbLen := 5 + bc.toNat, remain := 0, sync := .done } := by
  have hbc := bc.isLt
  have hne : bytes ≠ [] := List.ne_nil_of_length_pos (by omega)
  rw [feed_cons bc bytes (exec_eq_next_iff.2 (.byteCount bc s hs)),
    feed_payload hne rfl hlen.symm (by simp only; omega), hlen]
  simp only [Host.Outcome.next.injEq, State.mk.injEq, true_and, and_true]
  omega

/-- A list written to a RAM is read back as a span. -/
theorem Memory.readSpan_writeList {w : Nat} (m : Memory w) (a : Nat) (vs : List (BitVec w)) :
    Memory.readSpan (Memory.writeList m a vs) a vs.length = some vs :=
  (Memory.readSpan_eq_some ..).2 ⟨rfl, fun i hi => by simp [Memory.read_writeList, hi]⟩

/-! ### A whole search -/

/-- A search that is fed ends within 359 bytes: 101 for the hunt, one byte count, and at most 257 after it (R167). -/
theorem exists_search_end (s : State) {stream : List Byte} (hlen : 359 ≤ stream.length) :
    ∃ n t, n ≤ 359 ∧ feed (stream.take n) (huntingAfter stream 0 s) = .next t ∧
      (t.sync = .done ∨ t.sync = .fail) := by
  obtain ⟨n, t, hn, ht, hcount | hfail⟩ := exists_hunt_end s (stream := stream) (by omega)
  · have hbc := stream[n].isLt
    have hrest : (stream.drop n).take (stream[n].toNat + 3) =
        stream[n] :: (stream.drop (n + 1)).take (stream[n].toNat + 2) := by
      rw [List.drop_eq_getElem_cons (by omega), List.take_succ_cons]
    have hlen_rest : ((stream.drop (n + 1)).take (stream[n].toNat + 2)).length = stream[n].toNat + 2 := by
      rw [List.length_take, List.length_drop]
      omega
    have hend := feed_count hcount hlen_rest
    rw [← hrest, ← feed_append _ ht, ← List.take_add] at hend
    exact ⟨n + (stream[n].toNat + 3), _, by omega, hend, .inl rfl⟩
  · exact ⟨n, t, by omega, ht, .inr hfail⟩

end Sys2Proof.Machine
end

section
/-! SUPPORT. The statements about whole searches (spec/42_stream_sync.md R166, R167). -/

namespace Sys2Proof.Machine

/-- Settles O47: the frame's address and 0x03 are the stream's first marker, and the byte count announces the rest. -/
theorem noiseBeforeAFrameIsDiscarded : Obligations.NoiseBeforeAFrameIsDiscarded := by
  intro s g data bc c0 c1 hg hdata hm
  have hrest : (data ++ [c0, c1]).length = bc.toNat + 2 := by simp [hdata]
  have hframe : (s.reqAddr :: 0x03#8 :: bc :: (data ++ [c0, c1])).length = 5 + bc.toNat := by
    simp only [List.length_cons, hrest]
    omega
  generalize hstream : g ++ s.reqAddr :: 0x03#8 :: bc :: (data ++ [c0, c1]) = stream at hm ⊢
  have hlen : g.length + 1 < stream.length := by simp [← hstream]
  have hmarker : markerAt s.reqAddr stream (g.length + 1) := by simp [markerAt, ← hstream]
  have hdrop : stream.drop (g.length + 1 + 1) = bc :: (data ++ [c0, c1]) := by
    rw [← hstream, Nat.add_assoc, List.drop_length_add_append]
    rfl
  have hend := calc feed stream (huntingAfter stream 0 s)
      _ = feed (stream.take (g.length + 1 + 1) ++ bc :: (data ++ [c0, c1])) (huntingAfter stream 0 s) := by
        rw [← hdrop, List.take_append_drop]
      _ = feed (bc :: (data ++ [c0, c1])) _ :=
        feed_append _ (feed_take_hunt_finds hlen (by omega) (fun i hi => hm i (Nat.le_of_lt_succ hi)) hmarker)
      _ = .next _ := feed_count rfl hrest
  have hspan := Memory.readSpan_writeList s.fb 0 (s.reqAddr :: 0x03#8 :: bc :: (data ++ [c0, c1]))
  rw [hframe] at hspan
  exact ⟨_, hend, rfl, rfl, rfl, hspan⟩

/-- Settles O48: the hunt's end by its first marker or the cap, PAYLOAD by counting REMAIN down. -/
theorem everySearchThatIsFedEnds : Obligations.EverySearchThatIsFedEnds := by
  refine ⟨fun s stream hlen hm => ?_, fun s stream hlen => ?_, fun s b hs => ?_, fun s b h hs => ?_,
    fun s stream hlen => exists_search_end s hlen.ge⟩
  · have hend := feed_take_hunt_fails hlen.ge hm
    rw [List.take_of_length_le hlen.le] at hend
    exact ⟨_, hend, rfl, rfl⟩
  · obtain ⟨n, t, hn, ht, hend⟩ := exists_hunt_end s hlen.ge
    exact ⟨n, t, hn, ht, by rcases hend with h | h <;> simp [h]⟩
  · have hb := b.isLt
    exact ⟨_, exec_eq_next_iff.2 (.byteCount b s hs), rfl, by simp only; omega⟩
  · obtain ⟨hr, -⟩ := h.payload_room hs
    refine ⟨_, exec_eq_next_iff.2 (h.execNext_payload hs b), Nat.succ_pred hr, ?_⟩
    by_cases hlast : s.remain - 1 = 0
    · exact .inr ⟨if_pos hlast, hlast⟩
    · exact .inl ⟨if_neg hlast, Nat.pos_of_ne_zero hlast⟩

end Sys2Proof.Machine
end

section
/-! SUPPORT. The causes of the command errors SEQ and OVF, by the command and by its opcode, and that a command sets
each of the two bits for its cause alone (spec/60_exceptions.md R182 to R185). -/

namespace Sys2Proof.Machine

variable {i : Instr} {s t : State}

/-- What raises SEQ (60_exceptions.md R184): a frame command in a search, or SYNC_BYTE outside one. -/
def SeqCause (i : Instr) (s : State) : Prop :=
  ((i = .fbClear ∨ (∃ b, i = .fbPush b) ∨ i = .decode) ∧ s.sync ∈ [SyncState.hunt, .count, .payload]) ∨
  ((∃ b, i = .syncByte b) ∧ s.sync ∈ [SyncState.idle, .done, .fail])

/-- What raises OVF (60_exceptions.md R185): FB_PUSH outside a search with FB full. -/
def OvfCause (i : Instr) (s : State) : Prop :=
  (∃ b, i = .fbPush b) ∧ s.sync ∉ [SyncState.hunt, .count, .payload] ∧ s.fbLen = 260

theorem SyncState.mem_outside_iff (x : SyncState) :
    x ∈ [SyncState.idle, .done, .fail] ↔ x ∉ [SyncState.hunt, .count, .payload] := by
  cases x <;> decide

/-! ### A command with a cause is rejected, and any other leaves the bit alone -/

theorem exec_of_seqCause (h : SeqCause i s) : exec i s = .next { s with errSeq := true } := by
  obtain ⟨hi, hs⟩ | ⟨⟨b, rfl⟩, hs⟩ := h
  · exact exec_eq_seq hi hs
  · rw [SyncState.mem_outside_iff, ← SyncState.not_active_iff] at hs
    exact exec_eq_next_iff.2 (.seqIdle b s hs)

theorem exec_of_ovfCause (h : OvfCause i s) : exec i s = .next { s with errOvf := true } := by
  obtain ⟨⟨b, rfl⟩, hs, hl⟩ := h
  exact exec_eq_next_iff.2 (.ovf b s ((SyncState.not_active_iff _).2 hs) hl)

theorem ExecNext.errIll_eq (h : ExecNext i s t) : t.errIll = s.errIll := by
  cases h <;> simp

theorem ExecNext.errSeq_eq (h : ExecNext i s t) (hne : ¬SeqCause i s) : t.errSeq = s.errSeq := by
  cases h with
  | seqActive _ _ hi ha => exact absurd (.inl ⟨hi, (SyncState.active_iff _).1 ha⟩) hne
  | seqIdle b _ ha =>
    rw [SyncState.not_active_iff, ← SyncState.mem_outside_iff] at ha
    exact absurd (.inr ⟨⟨b, rfl⟩, ha⟩) hne
  | _ => simp

theorem ExecNext.errOvf_eq (h : ExecNext i s t) (hne : ¬OvfCause i s) : t.errOvf = s.errOvf := by
  cases h with
  | ovf b _ ha hl => exact absurd ⟨⟨b, rfl⟩, (SyncState.not_active_iff _).1 ha, hl⟩ hne
  | _ => simp

/-! ### The causes by opcode, as R182 writes its checks 3 and 4 -/

theorem opcode_mem_frameCommands_iff (i : Instr) :
    opcode i ∈ [0x20#8, 0x21#8, 0x22#8] ↔ i = .fbClear ∨ (∃ b, i = .fbPush b) ∨ i = .decode := by
  cases i <;> simp [opcode]

theorem opcode_eq_fbPush_iff (i : Instr) : opcode i = 0x21#8 ↔ ∃ b, i = .fbPush b := by
  cases i <;> simp [opcode]

theorem opcode_eq_syncByte_iff (i : Instr) : opcode i = 0x31#8 ↔ ∃ b, i = .syncByte b := by
  cases i <;> simp [opcode]

theorem seqCause_iff_opcode : SeqCause i s ↔
    opcode i ∈ [0x20#8, 0x21#8, 0x22#8] ∧ s.sync ∈ [SyncState.hunt, .count, .payload] ∨
    opcode i = 0x31#8 ∧ s.sync ∉ [SyncState.hunt, .count, .payload] := by
  rw [SeqCause, opcode_mem_frameCommands_iff, opcode_eq_syncByte_iff, SyncState.mem_outside_iff]

theorem ovfCause_iff_opcode : OvfCause i s ↔
    opcode i = 0x21#8 ∧ s.sync ∉ [SyncState.hunt, .count, .payload] ∧ s.fbLen = 260 := by
  rw [OvfCause, opcode_eq_fbPush_iff]

/-- A word with RSV = 0 and an assigned OP passes checks 1 and 2: it is a command with this OP. -/
theorem exists_decode_fieldsWord {op : Byte} (h : op ∈ opcodes) (b : Byte) :
    ∃ i, decode (fieldsWord 0#16 b op) = .ok i ∧ opcode i = op := by
  have hok : ∃ i, decode (fieldsWord 0#16 b op) = .ok i := by
    rw [exists_decode_eq_ok_iff, fieldsWord_decode_eq_error_iff]
    simp [h]
  obtain ⟨i, hd⟩ := hok
  obtain ⟨-, ho, -⟩ := (decode_eq_ok_iff _ i).1 hd
  exact ⟨i, hd, by rw [← ho, opOf_fieldsWord]⟩

end Sys2Proof.Machine
end

section
/-! SUPPORT. The statements about errors (spec/60_exceptions.md). -/

namespace Sys2Proof.Machine

/-- Settles O50: a command with a cause has one next state, and the frame of the ERR bits covers the others. -/
theorem seqAndOvfHaveExactlyTheirCauses : Obligations.SeqAndOvfHaveExactlyTheirCauses := by
  intro i s t he
  have h := exec_eq_next_iff.1 he
  have eq_of_exec {u : State} (hu : exec i s = .next u) : t = u := Host.Outcome.next.inj (he.symm.trans hu)
  exact ⟨fun hseq => eq_of_exec (exec_of_seqCause hseq), fun hovf => eq_of_exec (exec_of_ovfCause hovf),
    h.errSeq_eq, h.errOvf_eq, h.errIll_eq⟩

/-- Settles O49: a word that fails check 1 or 2 is no command; any other is the command with its OP, which has a cause
of SEQ or OVF exactly where check 3 or 4 fails. -/
theorem commandChecksAreMadeInOrder : Obligations.CommandChecksAreMadeInOrder := by
  refine fun rsv b op s => ⟨fun hr => runCommand_of_reserved_ne_zero hr b op s, fun ho => ?illegalOp,
    fun ho hs => ?frameInSearch, fun ho hs => ?byteOutsideSearch, fun ho hs hl => ?pushToFull,
    fun ho hframe hbyte hfull => ?executed⟩
  case illegalOp => exact runCommand_illegal s (.inr (by simpa using (notMem_opcodes_iff op).1 ho))
  case frameInSearch =>
    have hsub : [0x20#8, 0x21#8, 0x22#8] ⊆ opcodes := by decide
    obtain ⟨i, hd, rfl⟩ := exists_decode_fieldsWord (hsub ho) b
    exact (runCommand_of_decode s hd).trans (exec_of_seqCause (seqCause_iff_opcode.2 (.inl ⟨ho, hs⟩)))
  case byteOutsideSearch =>
    obtain ⟨i, hd, rfl⟩ := exists_decode_fieldsWord (op := op) (by simp [ho, opcodes]) b
    exact (runCommand_of_decode s hd).trans (exec_of_seqCause (seqCause_iff_opcode.2 (.inr ⟨ho, hs⟩)))
  case pushToFull =>
    obtain ⟨i, hd, rfl⟩ := exists_decode_fieldsWord (op := op) (by simp [ho, opcodes]) b
    exact (runCommand_of_decode s hd).trans (exec_of_ovfCause (ovfCause_iff_opcode.2 ⟨ho, hs, hl⟩))
  case executed =>
    obtain ⟨i, hd, rfl⟩ := exists_decode_fieldsWord ho b
    have hseq : ¬SeqCause i s := fun h => (seqCause_iff_opcode.1 h).elim hframe hbyte
    have hovf : ¬OvfCause i s := fun h =>
      have ⟨hpush, _, hl⟩ := ovfCause_iff_opcode.1 h
      hfull ⟨hpush, hl⟩
    refine ⟨i, hd, runCommand_of_decode s hd, fun t he => ?_⟩
    have h := exec_eq_next_iff.1 he
    exact ⟨h.errIll_eq, h.errSeq_eq hseq, h.errOvf_eq hovf⟩

end Sys2Proof.Machine
end

section
/-! SUPPORT. That REQ_COUNT has no part in a DECODE but in the warning (spec/70_reset_and_hazards.md R217). -/

namespace Sys2Proof.Machine

/-- A decode result with its warning withdrawn. -/
def FrameResult.withoutWarn : FrameResult → FrameResult
  | .ok vals _ => .ok vals false
  | .short => .short
  | .funcExc code => .funcExc code
  | .crcMismatch => .crcMismatch

/-- The count expected enters decode in R129 alone, where it gives the warning: no check of R126 to R128 and no value
of R130 and R131 depends on it. -/
theorem decodeResponse_withoutWarn (f : List Byte) (c c' : Half) :
    (decodeResponse f c).withoutWarn = (decodeResponse f c').withoutWarn := by
  by_cases hl : f.length < 5
  · rw [decodeResponse_of_length_lt c hl, decodeResponse_of_length_lt c' hl]
  · have hl : 5 ≤ f.length := Nat.not_lt.1 hl
    obtain ⟨fc, bc, hfc, hbc⟩ := exists_fc_and_bc hl
    rw [decodeResponse_eq_ite c hl hfc hbc, decodeResponse_eq_ite c' hl hfc hbc]
    split_ifs <;> rfl

/-- The state with the two fields R217 speaks of, REQ_COUNT and BC_WARN, at their reset values. -/
def clearCountAndWarn (s : State) : State :=
  { s with reqCount := 0#16, bcWarn := false }

/-- Up to these two fields, what a DECODE records depends on neither REQ_COUNT nor the result's warning. -/
theorem clearCountAndWarn_recordDecode (r : FrameResult) (s : State) (c : Half) :
    clearCountAndWarn (recordDecode r { s with reqCount := c }) = clearCountAndWarn (recordDecode r.withoutWarn s) := by
  cases r <;> rfl

/-- Each next state of a DECODE is reached with another REQ_COUNT too, and then differs in the two fields alone. -/
theorem ExecNext.decode_withReqCount {s t : State} (h : ExecNext .decode s t) (c : Half) :
    ∃ u, ExecNext .decode { s with reqCount := c } u ∧ clearCountAndWarn u = clearCountAndWarn t := by
  cases h with
  | seqActive _ _ hi ha => exact ⟨_, .seqActive _ _ hi ha, rfl⟩
  | decode _ f ha hf =>
    refine ⟨_, .decode { s with reqCount := c } f ha hf, ?_⟩
    calc clearCountAndWarn (recordDecode (decodeResponse f c) { s with reqCount := c })
      _ = clearCountAndWarn (recordDecode (decodeResponse f c).withoutWarn s) :=
        clearCountAndWarn_recordDecode _ s c
      _ = clearCountAndWarn (recordDecode (decodeResponse f s.reqCount).withoutWarn s) := by
        rw [decodeResponse_withoutWarn f c s.reqCount]
      _ = clearCountAndWarn (recordDecode (decodeResponse f s.reqCount) s) :=
        (clearCountAndWarn_recordDecode _ s s.reqCount).symm

theorem ExecFault.withReqCount {i : Instr} {s : State} {r : Fault} (h : ExecFault i s r) (c : Half) :
    ExecFault i { s with reqCount := c } r := by
  cases h <;> constructor <;> assumption

end Sys2Proof.Machine
end

section
/-! SUPPORT. The statements about reset and hazards (spec/70_reset_and_hazards.md). -/

namespace Sys2Proof.Machine

/-- Settles O35: a DECODE with another REQ_COUNT has the same next state up to the two fields, or the same fault. -/
theorem requestCountAffectsOnlyTheWarning : Obligations.RequestCountAffectsOnlyTheWarning := by
  intro s c
  rcases exec_cases .decode s with ⟨t, he, hn⟩ | ⟨r, he, hf⟩
  · obtain ⟨u, hu, hut⟩ := hn.decode_withReqCount c
    rw [he, exec_eq_next_iff.2 hu]
    exact congrArg Host.Outcome.next hut
  · rw [he, exec_eq_fault_iff.2 (hf.withReqCount c)]

/-- Settles O9: the step takes the event off the script, and `applyReset` keeps the rest of the script and the draws. -/
theorem resetEventRestoresTheResetState : Obligations.ResetEventRestoresTheResetState :=
  fun s rest => step_cons { s with inputs := .reset :: rest } .reset rest rfl

/-- 70_reset_and_hazards.md R212: no entry of the two RAMs is written. -/
theorem reset_unwritten (i : Nat) : State.reset.fb.read i = none ∧ State.reset.values.read i = none :=
  ⟨Memory.read_nil i, Memory.read_nil i⟩

/-- Settles O10: the reset state's fields as they stand, its RAMs, and the sixteen reads evaluated. -/
theorem resetLeavesTheStatedValues : Obligations.ResetLeavesTheStatedValues :=
  ⟨⟨rfl, rfl, rfl⟩, rfl, ⟨rfl, rfl, rfl, rfl⟩, rfl, rfl, ⟨rfl, rfl, rfl⟩, rfl, ⟨rfl, rfl⟩, ⟨rfl, rfl⟩, rfl, rfl,
    reset_unwritten, by decide⟩

end Sys2Proof.Machine
end
